-- ==== Sys2Proof/Word.lean ====
section
/-! DEFINITION. The byte, the byte string and the 88-bit word of the spec's notation (rule R6). -/

namespace Sys2Proof

/-- A byte: an 8-bit unsigned value (R6). -/
abbrev Byte := BitVec 8

/-- A byte string; its first element is the byte at offset 0 (R6). -/
abbrev Bytes := List Byte

/-- A frame shown as one 88-bit word W, where `F[i]` is `W[87-8i : 80-8i]` (R6). -/
abbrev FrameWord := BitVec 88

end Sys2Proof
end

