-- ==== Sys2Proof/Config.lean ====
section
/-! DEFINITION. The parameters of the block (rule R5): the fixed ones as constants, the ones a
configuration chooses as the structure `Params`. -/

namespace Sys2Proof

namespace Config

/-- `FRAME_LEN` (R5). -/
abbrev frameLen : Nat := 11
/-- `HDR_LEN` (R5): F[0]..F[3]. -/
abbrev hdrLen : Nat := 4
/-- `PAYLOAD_SLOTS` (R5): F[4]..F[10]. -/
abbrev payloadSlots : Nat := 7
/-- `MAX_PAYLOAD` (R5): the most significant bytes a frame carries. -/
abbrev maxPayload : Nat := 7
/-- `FC_CFGW` (R5, R44): the function code "configuration write". -/
abbrev fcCfgw : Byte := 0x07#8
/-- `TOKEN_COUNT` (R5). -/
abbrev tokenCount : Nat := 4

end Config

/-- The parameters that a configuration fixes before the first request (R5, R91).
They are arguments of the model: State holds them and no step changes them (assumption 2). -/
structure Params where
  /-- `WS_SET`: the bytes that separate tokens (R5, R8). -/
  wsSet : List Byte
  /-- `PLUS_SIGN_OK`: whether a numeral may begin with `+` (R5, R41). -/
  plusSignOk : Bool
  /-- `MAX_CMD_BYTES`: OPEN in the spec; `none` is ∞, no bound (R5). -/
  maxCmdBytes : Option Nat
  deriving DecidableEq, Repr

namespace Params

/-- The default `WS_SET` of R5. -/
def defaultWsSet : List Byte := [0x09#8, 0x0A#8, 0x0B#8, 0x0C#8, 0x0D#8, 0x20#8]

/-- The defaults of R5. `MAX_CMD_BYTES` is OPEN there; ∞ is the model's choice for `State.reset`
(DESIGN CHOICE, assumption 2). -/
def default : Params :=
  { wsSet := defaultWsSet, plusSignOk := true, maxCmdBytes := none }

/-- Whether a request of `n` command bytes is within `MAX_CMD_BYTES` (R24, R68, R87). -/
def admits (p : Params) (n : Nat) : Bool :=
  match p.maxCmdBytes with
  | none => true
  | some m => decide (n ≤ m)

end Params

end Sys2Proof
end

