-- ==== Sys2Proof/Syntax.lean ====
section
/-! DEFINITION. The block's operations as syntax. The operation set is {ENCODE_WRITE} (rule R1), the one row
of spec/opcode_table.json. -/

namespace Sys2Proof

/-- The operation set of the block (R1). -/
inductive Instr where
  /-- `ENCODE_WRITE` (R68). Its operand is the request's command bytes, the full raw line (R15). -/
  | encodeWrite (cmd : Bytes)
  deriving DecidableEq, Repr

/-- The numeric fields of a `write` command, the contents of the source's `Write{...}` (R20, R21). -/
structure WriteFields where
  nodeId : BitVec 8
  paramIndex : BitVec 8
  paramValue : BitVec 64
  deriving DecidableEq, Repr

end Sys2Proof
end

