-- ==== Sys2Proof/WellFormed.lean ====
section
/-! DEFINITION. Which terms are well-formed: an instruction (rules R24, R68), the fields of an accepted
command (rule R70) and a CFGW frame (rule R51). The lexical grammars of a line (rule R40) and of a numeral
(rule R41) stand here too, as the spec writes them and apart from the functions that split and parse. -/

namespace Sys2Proof

/-- An instruction is well-formed under the parameters iff its command is within `MAX_CMD_BYTES`
(R24, R68). Any bytes are legal command bytes (R14, R15). -/
def Instr.wf (p : Params) : Instr → Bool
  | .encodeWrite cmd => p.admits cmd.length

/-- The fields of an accepted command: a value is accepted iff it is at most 2^56 - 1 (R70).
The node id and the parameter index have no reserved value (R45). -/
def WriteFields.wf (f : WriteFields) : Bool := decide (f.paramValue.toNat < 2 ^ 56)

/-- `F[i]` of a byte string, read where the offset exists (R6); WF asks for it only then. -/
def byteAt (F : Bytes) (i : Nat) : Byte := F.getD i 0

/-- `∀ k, F[3] ≤ k < 7 → F[4+k] = 0x00`, the fourth conjunct of WF (R51). -/
def paddingZero (F : Bytes) : Bool :=
  (List.range Config.payloadSlots).all fun k =>
    decide (k < (byteAt F 3).toNat) || byteAt F (Config.hdrLen + k) == 0

/-- `F[3] > 0 → F[4] ≠ 0x00`, the fifth conjunct of WF: the encoding is minimal (R51). -/
def payloadMinimal (F : Bytes) : Bool := byteAt F 3 == 0 || byteAt F 4 != 0

/-- `WF(F)`, a well-formed CFGW frame (R51). -/
def frameWf (F : Bytes) : Bool :=
  F.length == Config.frameLen && byteAt F 0 == Config.fcCfgw && decide ((byteAt F 3).toNat ≤ Config.maxPayload)
    && paddingZero F && payloadMinimal F

/-! ### The grammar of a line -/

/-- What follows a token of a line: `(ws+ token)* ws*`, with the tokens it holds (R40). -/
inductive IsTail (ws : List Byte) : List Bytes → Bytes → Prop where
  | blank (gap : Bytes) (hgap : ∀ b ∈ gap, b ∈ ws) : IsTail ws [] gap
  | more (gap tok tail : Bytes) (toks : List Bytes) (hne : gap ≠ []) (hgap : ∀ b ∈ gap, b ∈ ws)
      (htok : tok ≠ []) (hbytes : ∀ b ∈ tok, b ∉ ws) (htail : IsTail ws toks tail) :
      IsTail ws (tok :: toks) (gap ++ tok ++ tail)

/-- `line ::= ws* ( token ( ws+ token )* )? ws*`, with the tokens it holds (R40). -/
inductive IsLine (ws : List Byte) : List Bytes → Bytes → Prop where
  | blank (gap : Bytes) (hgap : ∀ b ∈ gap, b ∈ ws) : IsLine ws [] gap
  | tokens (lead tok tail : Bytes) (toks : List Bytes) (hlead : ∀ b ∈ lead, b ∈ ws)
      (htok : tok ≠ []) (hbytes : ∀ b ∈ tok, b ∉ ws) (htail : IsTail ws toks tail) :
      IsLine ws (tok :: toks) (lead ++ tok ++ tail)

/-! ### The grammar of a numeral -/

/-- `numeral ::= [ "+" ] digit+`, the `+` only when `PLUS_SIGN_OK`; `ds` are its digits (R41). -/
structure IsNumeral (plusOk : Bool) (tok ds : Bytes) : Prop where
  digits_ne : ds ≠ []
  digits : ∀ c ∈ ds, 0x30 ≤ c.toNat ∧ c.toNat ≤ 0x39
  spelled : tok = ds ∨ (plusOk = true ∧ tok = 0x2B#8 :: ds)

/-- The decimal value of digits, each with the weight of its place (R41). -/
def decimalValue : Bytes → Nat
  | [] => 0
  | c :: cs => (c.toNat - 0x30) * 10 ^ cs.length + decimalValue cs

end Sys2Proof
end

