-- ==== Sys2Proof/Decode.lean ====
section
/-! DEFINITION. Decoding and encoding. The input of the block is a request's command bytes (rules R15, R39);
its output, and the binary format of spec/opcode_table.json, is the CFGW frame (rules R42 to R52).
The block itself decodes no frame (R50): the frame decoder is the inverse map of rule R71. -/

namespace Sys2Proof

/-! ### The request port -/

/-- Why a byte string is no instruction of the block. -/
inductive DecodeError where
  /-- The request has more than `MAX_CMD_BYTES` bytes (R87). -/
  | overLong
  deriving DecidableEq, Repr

/-- The instruction that a request's command bytes are: each request starts one ENCODE_WRITE (R13, R68),
whatever its bytes (R15, R40), unless it is over-long (R87). -/
def decodeRequest (p : Params) (cmd : Bytes) : Except DecodeError Instr :=
  if p.admits cmd.length then .ok (.encodeWrite cmd) else .error .overLong

/-- The command bytes of an instruction (R15). -/
def encodeRequest : Instr → Bytes
  | .encodeWrite cmd => cmd

/-! ### Byte order -/

/-- `val_BE(s)`: the big-endian value of a byte string (R6). -/
def valBE (s : Bytes) : Nat := s.foldl (fun v b => v * 256 + b.toNat) 0

/-- The 11 bytes of a word, `F[i] = W[87-8i : 80-8i]` (R6). -/
def wordFrame (W : FrameWord) : Bytes :=
  (List.range Config.frameLen).map fun i => W.extractLsb' (80 - 8 * i) 8

/-- The word of a frame: `F[0]` is its most significant byte (R6, R28). -/
def frameWord (F : Bytes) : FrameWord := BitVec.ofNat 88 (valBE F)

/-! ### The CFGW frame, from the table of the spec -/

/-- `L`, the payload length, by the thresholds of R70. -/
def payloadLength (v : BitVec 64) : Nat :=
  if v.toNat = 0 then 0
  else if v.toNat < 2 ^ 8 then 1
  else if v.toNat < 2 ^ 16 then 2
  else if v.toNat < 2 ^ 24 then 3
  else if v.toNat < 2 ^ 32 then 4
  else if v.toNat < 2 ^ 40 then 5
  else if v.toNat < 2 ^ 48 then 6
  else if v.toNat < 2 ^ 56 then 7
  else 8

/-- The row of the opcode table as a word, most significant bit first (R48):
`00000111 nnnnnnnn pppppppp 00000lll v…v`, with `v = val_BE(sig) << (8*(7-L))` in the 56-bit payload area
(R65: `val_BE(sig)` is the value). Meaningful for well-formed fields. -/
def encodeWord (f : WriteFields) : FrameWord :=
  let L := payloadLength f.paramValue
  Config.fcCfgw ++ f.nodeId ++ f.paramIndex ++ (0#5 ++ BitVec.ofNat 3 L)
    ++ (f.paramValue.setWidth 56 <<< (8 * (Config.payloadSlots - L)))

/-- The frame of well-formed fields, by the table's row (R42, R48). -/
def encodeFrame (f : WriteFields) : Bytes := wordFrame (encodeWord f)

/-- Why a byte string is no CFGW frame (R50 lists the cases). -/
inductive FrameError where
  /-- Not 11 bytes (R43). -/
  | wrongLength
  /-- A function code other than 0x07 (R49). -/
  | unknownFunctionCode
  /-- F[3] > 7 (R46). -/
  | payloadLengthOutOfRange
  /-- A nonzero slot at k ≥ L (R47). -/
  | paddingNotZero
  /-- F[4] = 0x00 with L > 0 (R51). -/
  | payloadNotMinimal
  deriving DecidableEq, Repr

/-- The payload of a frame: exactly F[3] bytes from offset 4 (R52). -/
def payloadOf (F : Bytes) : Bytes := (F.drop Config.hdrLen).take (byteAt F 3).toNat

/-- `Decode(F) = (F[1], F[2], val_BE(F[4 .. 4+F[3]]))`, defined on well-formed frames (R71);
every other byte string is rejected by name (R50, R51). A law for reasoning, no port of the block. -/
def decodeFrame (F : Bytes) : Except FrameError WriteFields :=
  if F.length ≠ Config.frameLen then .error .wrongLength
  else if byteAt F 0 ≠ Config.fcCfgw then .error .unknownFunctionCode
  else if Config.maxPayload < (byteAt F 3).toNat then .error .payloadLengthOutOfRange
  else if paddingZero F = false then .error .paddingNotZero
  else if payloadMinimal F = false then .error .payloadNotMinimal
  else .ok { nodeId := byteAt F 1, paramIndex := byteAt F 2, paramValue := BitVec.ofNat 64 (valBE (payloadOf F)) }

/-! ### The command that a frame stands for -/

/-- The ASCII digit of a number below ten (R8). -/
def digitByte (d : Nat) : Byte := BitVec.ofNat 8 (0x30 + d)

/-- The decimal digits of `n`, most significant first, for `n` below `10 ^ fuel` and fuel above 0. -/
def decimalDigits : Nat → Nat → Bytes
  | 0, _ => []
  | fuel + 1, n => if n < 10 then [digitByte n] else decimalDigits fuel (n / 10) ++ [digitByte (n % 10)]

/-- The decimal numeral of a u64 value: at most 20 digits, no sign, no leading zero (R41). -/
def numeral (n : Nat) : Bytes := decimalDigits 20 n

/-- The bytes of `write `, the keyword of R39 and one space. -/
def writeKeyword : Bytes := [0x77#8, 0x72#8, 0x69#8, 0x74#8, 0x65#8, 0x20#8]

/-- The command line `write <node_id> <param_index> <param_value>` of the fields (R39), the command that R51
names as the one that produces their frame. -/
def commandLine (f : WriteFields) : Bytes :=
  writeKeyword ++ numeral f.nodeId.toNat ++ [0x20#8] ++ numeral f.paramIndex.toNat ++ [0x20#8]
    ++ numeral f.paramValue.toNat

/-! ### The word of the opcode table -/

/-- The instruction that the table's word stands for. The table numbers the row's 88 bits with F[0] in bits 87..80
(R6, R48), and the row is the frame that ENCODE_WRITE produces, so the word is read by the inverse map of R71
and stands for the command that R51 names for that frame (assumption 8). R51 names no parameters, and this function sees no
state: the command is decoded under `Params.default`, whatever the parameters of the state it is placed in (DESIGN CHOICE,
assumption 18). `none` where the decoder refuses. -/
def decodeTableWord (nbits w : Nat) : Option Instr :=
  if nbits ≤ 88 then
    match decodeFrame (wordFrame (BitVec.ofNat 88 (w % 2 ^ nbits))) with
    | .ok f => (decodeRequest Params.default (commandLine f)).toOption
    | .error _ => none
  else none

end Sys2Proof
end

