-- ==== Sys2Proof/Machine/State.lean ====
section
/-! DEFINITION. The state of the block and of the host that drives it (rules R14 to R23, R87, R96), the reasons a
step can stop, and the state after reset. -/

namespace Sys2Proof.Machine

/-- The three typed errors of ENCODE_WRITE (R75). They are ordinary results, not faults (R88). -/
inductive EncodeError where
  /-- Wrong token count (R76). -/
  | malformedCommand
  /-- A numeric field did not parse in its range (R77). -/
  | invalidField
  /-- The minimal encoding of the value exceeds 7 bytes (R78). -/
  | payloadTooLarge
  deriving DecidableEq, Repr

/-- One response, as the observation of a run lists it: (status, frame or ⊥) (R96). -/
structure Response where
  status : BitVec 2
  frame : Option Bytes
  deriving DecidableEq, Repr

/-- What a host can do to the block (R14, R86, R89). -/
inductive HostAction where
  /-- Issue a request: write `REQ_CMD` (R14). -/
  | issue (cmd : Bytes)
  /-- Read `RSP_VALID` (R16). -/
  | readValid
  /-- Read `RSP_STATUS` (R17). -/
  | readStatus
  /-- Read `RSP_FRAME` (R18). -/
  | readFrame
  /-- Reset the block (R89). -/
  | reset
  deriving DecidableEq, Repr

/-- Who moves next (R38, assumption 3). -/
inductive Turn where
  /-- The block takes the pending request, if there is one. -/
  | block
  /-- A host acts. -/
  | host (a : HostAction)
  deriving DecidableEq, Repr

/-- What a host's read of a response register returned (assumption 6). -/
inductive ReadValue where
  | valid (v : BitVec 1)
  | status (c : BitVec 2)
  | frame (F : Bytes)
  deriving DecidableEq, Repr

/-- The state: the four interface registers (R14), the parameters (R5), the refusal mark (R87), the observation of
the run (R96), and the model's own schedule and read log (assumptions 3 and 6). -/
structure State where
  /-- The parameters; fixed by the configuration (R5, R23). -/
  params : Params
  /-- `REQ_CMD`: the pending request's full raw line, or no request pending (R14, R15, R23). -/
  reqCmd : Option Bytes
  /-- `RSP_VALID` (R16). -/
  rspValid : BitVec 1
  /-- `RSP_STATUS`; `none` is the spec's ⊥ (R17). -/
  rspStatus : Option (BitVec 2)
  /-- `RSP_FRAME`; `none` is the spec's ⊥ (R18). -/
  rspFrame : Option Bytes
  /-- The refusal mark, which stays for the rest of the run (R87). -/
  refusalMark : Bool
  /-- The responses of the run, in request order (R96). -/
  responses : List Response
  /-- The values that host reads returned, in order (assumption 6). -/
  reads : List ReadValue
  /-- The free schedule: the turns still to come (R38, assumption 3). -/
  schedule : List Turn
  deriving DecidableEq, Repr

/-- What stops the machine: only a read of a register that holds ⊥ (R88). -/
inductive Fault where
  /-- Raised by a host's read of `RSP_STATUS` while it holds ⊥ (R17). Safe: the spec's own fault. -/
  | statusHoldsNoValue
  /-- Raised by a host's read of `RSP_FRAME` while it holds ⊥ (R18). Safe: the spec's own fault. -/
  | frameHoldsNoValue
  deriving DecidableEq, Repr

/-- Why a step has no meaning. The over-long request of R87 is no such case: the spec says what it leaves
(assumption 1). -/
inductive Refusal where
  /-- An instruction that exec's arm rejects by name. No arm does. Safe. -/
  | notModelled (mnemonic : String)
  deriving DecidableEq, Repr

/-- The outcome of a meaning or a step. -/
abbrev Result := Host.Outcome State Fault Refusal

namespace State

/-- The machine right after reset (R23), with the default parameters and, of the model's own fields and the run's
records, nothing yet (assumptions 2 and 14). -/
def reset : State :=
  { params := Params.default
    reqCmd := none
    rspValid := 0
    rspStatus := none
    rspFrame := none
    refusalMark := false
    responses := []
    reads := []
    schedule := [] }

end State

end Sys2Proof.Machine
end

