-- ==== Sys2Proof/Machine/Operands.lean ====
section
/-! DEFINITION. The operands of ENCODE_WRITE: reading the command bytes, tokenising (rule R55), the unsigned parse
(rule R58), and the bytes of a value (rules R64, R65). -/

namespace Sys2Proof.Machine

/-! ### Reading the command -/

/-- `MemRead(CMD, a, 1)`, defined only for `a < n` (R7, R24). -/
def memReadCmd (cmd : Bytes) (a : Nat) : Option Byte := cmd[a]?

/-- The bytes the block reads: each once, from offset 0 to n-1 (R25). -/
def readCommand (cmd : Bytes) : Bytes := (List.range cmd.length).filterMap (memReadCmd cmd)

/-! ### Tokenising -/

/-- The body of R55's loop on one byte: `toks` and `cur` after it. -/
def tokeniseByte (ws : List Byte) (acc : List Bytes × Bytes) (b : Byte) : List Bytes × Bytes :=
  if ws.contains b then
    if acc.2.isEmpty then acc else (acc.1 ++ [acc.2], [])
  else (acc.1, acc.2 ++ [b])

/-- R55 after the loop: a token still open is the last one. -/
def closeToken (acc : List Bytes × Bytes) : List Bytes :=
  if acc.2.isEmpty then acc.1 else acc.1 ++ [acc.2]

/-- `Tokenise(cmd)` (R55). -/
def tokenise (ws : List Byte) (cmd : Bytes) : List Bytes :=
  closeToken ((readCommand cmd).foldl (tokeniseByte ws) ([], []))

/-! ### The unsigned parse -/

/-- `DIGIT` (R8). -/
def isDigit (c : Byte) : Bool := decide (0x30 ≤ c.toNat) && decide (c.toNat ≤ 0x39)

/-- The digits of a token, after the optional `+` (R41, R58). -/
def dropPlus (plusOk : Bool) : Bytes → Bytes
  | [] => []
  | c :: cs => if plusOk && c == 0x2B#8 then cs else c :: cs

/-- The digit loop of R58: an unbounded natural, never wrapping. -/
def accumulate : Nat → Bytes → Option Nat
  | v, [] => some v
  | v, c :: cs => if isDigit c then accumulate (10 * v + (c.toNat - 0x30)) cs else none

/-- `ParseU(tok, w)` (R58); `none` is ⊥. -/
def parseU (plusOk : Bool) (w : Nat) (tok : Bytes) : Option (BitVec w) :=
  match dropPlus plusOk tok with
  | [] => none
  | c :: cs =>
    match accumulate 0 (c :: cs) with
    | none => none
    | some v => if v < 2 ^ w then some (BitVec.ofNat w v) else none

/-- The digit loop in a register of width `w`, giving ⊥ at the step where the value leaves it: the other model that R63
allows. -/
def accumulateChecked (w : Nat) : Nat → Bytes → Option Nat
  | v, [] => some v
  | v, c :: cs =>
    if isDigit c then
      let v' := 10 * v + (c.toNat - 0x30)
      if v' < 2 ^ w then accumulateChecked w v' cs else none
    else none

/-! ### The bytes of a value -/

/-- `BE8(v)[k] = (v >> (8*(7-k))) & 0xFF` for k in 0..7 (R6, R64). -/
def be8 (v : BitVec 64) : Bytes :=
  (List.range 8).map fun k => ((v >>> (8 * (7 - k))) &&& 0xFF#64).setWidth 8

/-- `StripLeadingZeros(be)`: only the leading run of zero bytes goes (R65, C2). -/
def stripLeadingZeros (be : Bytes) : Bytes := be.dropWhile (· == 0)

/-- The significant bytes of a value (R64, R65). -/
def significantBytes (v : BitVec 64) : Bytes := stripLeadingZeros (be8 v)

end Sys2Proof.Machine
end

