-- ==== Sys2Proof/Machine/Flags.lean ====
section
/-! DEFINITION. The status codes, the block's only flags beside `RSP_VALID` (rules R19, R75). -/

namespace Sys2Proof.Machine

/-- `code(E)` (R75, numbers by D3). -/
def errorCode : EncodeError → BitVec 2
  | .malformedCommand => 1
  | .invalidField => 2
  | .payloadTooLarge => 3

/-- The code of OK (R75). -/
def okCode : BitVec 2 := 0

/-- The response that a result of ENCODE_WRITE gives: its code, and the frame on OK, ⊥ otherwise (R75). -/
def responseOf : Except EncodeError Bytes → Response
  | .ok F => { status := okCode, frame := some F }
  | .error e => { status := errorCode e, frame := none }

end Sys2Proof.Machine
end

