-- ==== Sys2Proof/Machine/Ops.lean ====
section
/-! DEFINITION. The shared operations on the interface registers: completing an operation with a frame (rule R67)
or by `raise` (rules R7, R81), refusing an over-long request (rule R87), taking and issuing a request, host reads
(rules R16 to R18) and reset (rule R89). -/

namespace Sys2Proof.Machine

/-! ### Completing an operation -/

/-- Writing the response registers as one unit, in one step (R31), and recording the response (R96). The last frame is
replaced, or gone (R18, R92). -/
def writeResponse (r : Response) (s : State) : State :=
  { s with
    rspValid := 1
    rspStatus := some r.status
    rspFrame := r.frame
    responses := s.responses ++ [r] }

/-- `raise E()`: writes `RSP_STATUS <- code(E)` and `RSP_VALID <- 1`, leaves `RSP_FRAME` holding ⊥, and changes no other
register (R7, R81). It saves nothing and goes to no handler (R81); the next request is taken as after success (R82),
so nothing returns from it. -/
def raise (e : EncodeError) (s : State) : State := writeResponse (responseOf (.error e)) s

/-- `return F`: ends the operation with status OK and all 11 bytes of F (R7, R31, R67). -/
def returnFrame (F : Bytes) (s : State) : State := writeResponse (responseOf (.ok F)) s

/-- The end of an operation, by its result. -/
def complete (r : Except EncodeError Bytes) (s : State) : State :=
  match r with
  | .ok F => returnFrame F s
  | .error e => raise e s

/-- Refusing an over-long request: no operation runs, the response registers are unchanged, the refusal mark is set and
stays (R87). -/
def refuseRequest (s : State) : State := { s with refusalMark := true }

/-! ### The request port -/

/-- The block takes the pending request and does not keep it after the response (R15). -/
def takeRequest (s : State) : State := { s with reqCmd := none }

/-- A host issues a request at a free port: it is pending (R14), or refused where it is over-long (R87). -/
def issueRequest (cmd : Bytes) (s : State) : State :=
  if s.params.admits cmd.length then { s with reqCmd := some cmd } else refuseRequest s

/-! ### Host reads -/

/-- What a read returned is recorded; it has no other effect (R32). -/
def recordRead (v : ReadValue) (s : State) : State := { s with reads := s.reads ++ [v] }

/-- A host's read of `RSP_VALID` (R16). -/
def readValid (s : State) : Result := .next (recordRead (.valid s.rspValid) s)

/-- A host's read of `RSP_STATUS`: a fault while it holds ⊥ (R17). -/
def readStatus (s : State) : Result :=
  match s.rspStatus with
  | some c => .next (recordRead (.status c) s)
  | none => .fault .statusHoldsNoValue

/-- A host's read of `RSP_FRAME`: a fault while it holds ⊥ (R18). -/
def readFrame (s : State) : Result :=
  match s.rspFrame with
  | some F => .next (recordRead (.frame F) s)
  | none => .fault .frameHoldsNoValue

/-! ### Reset -/

/-- Reset: drops a request not yet taken, `RSP_VALID <- 0`, `RSP_STATUS` and `RSP_FRAME` hold ⊥. It affects only the
interface registers (R89): the parameters stay (R23), and so do the refusal mark (R87) and the run's records (R96). -/
def resetBlock (s : State) : State :=
  { s with reqCmd := none, rspValid := 0, rspStatus := none, rspFrame := none }

end Sys2Proof.Machine
end

