-- ==== Sys2Proof/Machine/EncodeWrite.lean ====
section
/-! DEFINITION. ENCODE_WRITE: its steps (rules R56, R59 to R62, R66, R67), the operation as a function of the command
bytes (rule R68), and the meaning of the instruction. -/

namespace Sys2Proof.Machine

/-- `CheckCount` (R56): tokens 1 to 3 of a line of exactly four; token 0 is not examined (R57). -/
def checkCount : List Bytes → Except EncodeError (Bytes × Bytes × Bytes)
  | [_, t1, t2, t3] => .ok (t1, t2, t3)
  | _ => .error .malformedCommand

/-- The three field parses (R59, R60, R61) and `CheckFields`, all or nothing (R62). -/
def checkFields (plusOk : Bool) (toks : Bytes × Bytes × Bytes) : Except EncodeError WriteFields :=
  match parseU plusOk 8 toks.1, parseU plusOk 8 toks.2.1, parseU plusOk 64 toks.2.2 with
  | some nid, some pix, some pv => .ok { nodeId := nid, paramIndex := pix, paramValue := pv }
  | _, _, _ => .error .invalidField

/-- `CheckLength` (R66). -/
def checkLength (sig : Bytes) : Except EncodeError Bytes :=
  if Config.maxPayload < sig.length then .error .payloadTooLarge else .ok sig

/-- `Assemble` (R67): header, L, the significant bytes, zeros up to 11 bytes. -/
def assemble (f : WriteFields) (sig : Bytes) : Bytes :=
  let F := [Config.fcCfgw, f.nodeId, f.paramIndex] ++ [BitVec.ofNat 8 sig.length] ++ sig
  F ++ List.replicate (Config.frameLen - F.length) 0

/-- The first half of ENCODE_WRITE: from the command bytes to the three numbers (R55 to R62). -/
def parseCommand (p : Params) (cmd : Bytes) : Except EncodeError WriteFields :=
  match checkCount (tokenise p.wsSet cmd) with
  | .error e => .error e
  | .ok toks => checkFields p.plusSignOk toks

/-- The second half of ENCODE_WRITE: from the three numbers to the frame (R64 to R67). -/
def frameOf (f : WriteFields) : Except EncodeError Bytes :=
  match checkLength (significantBytes f.paramValue) with
  | .error e => .error e
  | .ok sig => .ok (assemble f sig)

/-- `ENCODE_WRITE(cmd)` as a function of the command bytes and the parameters alone (R68, R73). -/
def encodeWrite (p : Params) (cmd : Bytes) : Except EncodeError Bytes :=
  match parseCommand p cmd with
  | .error e => .error e
  | .ok f => frameOf f

/-- The meaning of ENCODE_WRITE: the operation runs to its response in one step (R68, R95); an over-long request is
refused (R68, R87). -/
def execEncodeWrite (cmd : Bytes) (s : State) : Result :=
  if s.params.admits cmd.length then .next (complete (encodeWrite s.params cmd) s) else .next (refuseRequest s)

end Sys2Proof.Machine
end

