-- ==== Sys2Proof/Machine/HostPort.lean ====
section
/-! DEFINITION. The turns of a run: the block serving the pending request (rules R34, R95) and a host acting on the
block's interface (rules R14, R86, R89). -/

namespace Sys2Proof.Machine

/-- A turn of the block: it takes the pending request and runs it to its response (R34, R95); an over-long one is refused
(R87); with nothing pending, nothing happens (assumption 3). -/
def serve (s : State) : Result :=
  match s.reqCmd with
  | none => .next s
  | some cmd =>
    match decodeRequest s.params cmd with
    | .ok i => exec i (takeRequest s)
    | .error _ => .next (refuseRequest (takeRequest s))

/-- A host's turn to issue a request; `rest` is the schedule after it. While a request is pending the port is busy: the
block completes that one first and the issue stays scheduled (R34, assumption 4). -/
def hostIssue (cmd : Bytes) (rest : List Turn) (s : State) : Result :=
  match s.reqCmd with
  | some _ => serve s
  | none => .next (issueRequest cmd { s with schedule := rest })

/-- A host's turn; `rest` is the schedule after it. -/
def hostTurn (a : HostAction) (rest : List Turn) (s : State) : Result :=
  match a with
  | .issue cmd => hostIssue cmd rest s
  | .readValid => readValid { s with schedule := rest }
  | .readStatus => readStatus { s with schedule := rest }
  | .readFrame => readFrame { s with schedule := rest }
  | .reset => .next (resetBlock { s with schedule := rest })

/-- One turn of the run: the next one of the schedule, and the block's where the schedule has ended. -/
def takeTurn (s : State) : Result :=
  match s.schedule with
  | [] => serve s
  | .block :: rest => serve { s with schedule := rest }
  | .host a :: rest => hostTurn a rest s

/-- The request that an instruction is, pending, with the block to move next: where the next step takes it. It stands for a
load from outside, not for a host's issue, so it does not wait: a request already pending is replaced and gets no response
(DESIGN CHOICE, assumption 17; the spec says nothing of a second request at a busy port). -/
def placeRequest (i : Instr) (s : State) : State :=
  { s with reqCmd := some (encodeRequest i), schedule := .block :: s.schedule }

end Sys2Proof.Machine
end

