-- ==== Sys2Proof/Machine/Step.lean ====
section
/-! DEFINITION. One step of the machine, and the placing of an instruction where the next step takes it. -/

namespace Sys2Proof.Machine

/-- One step: one turn of the schedule. An operation is one atomic step (R95). -/
def step (s : State) : Host.Outcome State Fault Refusal := takeTurn s

/-- `s` with the instruction that the table's word stands for pending in `REQ_CMD` and the block to move next
(assumption 8); a request already pending is replaced (assumption 17). The word is read under the default
parameters, and the placed request runs under those of `s` (assumption 18). A word that the decoder refuses is no request, and places nothing. -/
def State.withFetchWord (s : State) (nbits w : Nat) : State :=
  match decodeTableWord nbits w with
  | some i => placeRequest i s
  | none => s

end Sys2Proof.Machine
end

