-- ==== Sys2Proof/Safety.lean ====
section
/-! DEFINITION. What every state of a run satisfies: the response registers and the run's responses are consistent
(rules R16 to R18, R51, R75), and a pending request is within its bound (rule R14). -/

namespace Sys2Proof.Machine

/-- A response is consistent: it carries a frame iff its status is OK, and that frame is well-formed (R18, R51, R75). -/
structure Response.Consistent (r : Response) : Prop where
  frame_iff_ok : r.frame.isSome = true ↔ r.status = okCode
  frame_wf : ∀ F, r.frame = some F → frameWf F = true

/-- The invariant of the machine. -/
structure State.Inv (s : State) : Prop where
  /-- `RSP_STATUS` holds a value iff `RSP_VALID` is 1 (R16, R17). -/
  status_iff_valid : s.rspStatus.isSome = true ↔ s.rspValid = 1
  /-- `RSP_FRAME` holds a value iff the last status is OK (R18). -/
  frame_iff_ok : s.rspFrame.isSome = true ↔ s.rspStatus = some okCode
  /-- The legal values of `RSP_FRAME` are the well-formed frames (R14, R51). -/
  frame_wf : ∀ F, s.rspFrame = some F → frameWf F = true
  /-- While the registers hold a response, it is the last one of the run (R17, R18, R96). -/
  last_response : ∀ c, s.rspStatus = some c → s.responses.getLast? = some { status := c, frame := s.rspFrame }
  /-- Every response of the run is consistent (R75, R96). -/
  responses_consistent : ∀ r ∈ s.responses, r.Consistent
  /-- `REQ_CMD` holds at most `MAX_CMD_BYTES` bytes (R14). -/
  request_admitted : ∀ cmd, s.reqCmd = some cmd → s.params.admits cmd.length = true

end Sys2Proof.Machine
end

