-- ==== Sys2Proof/Certificates/Slice0/Obligations.lean ====
section
/-! DEFINITION. The statements about the machine, each with the rule of the spec it formalises. "Dn" is a decision of
spec/92_eei_decisions.md (the spec's own choice where its source is silent); "assumption n" is notes/assumptions/n.md (the
model's). -/

open Sys2Proof Sys2Proof.Machine

namespace Sys2Proof.Spec

/-- The state after a completed operation with this status and frame, every field not named being as before: `RSP_VALID`,
`RSP_STATUS` and `RSP_FRAME` written in one step (R31, R68), and the response listed in the observation (R96). -/
def afterResponse (s : State) (c : BitVec 2) (F : Option Bytes) : State :=
  { s with
    rspValid := 1
    rspStatus := some c
    rspFrame := F
    responses := s.responses ++ [{ status := c, frame := F }] }

/-- The line splits into exactly four tokens, and tokens 1, 2 and 3 parse to these fields (R56 to R62). -/
def FieldsParse (p : Params) (cmd : Bytes) (f : WriteFields) : Prop :=
  ∃ t0 t1 t2 t3, tokenise p.wsSet cmd = [t0, t1, t2, t3] ∧ parseU p.plusSignOk 8 t1 = some f.nodeId ∧
    parseU p.plusSignOk 8 t2 = some f.paramIndex ∧ parseU p.plusSignOk 64 t3 = some f.paramValue

/-- The turns in which a host issues each request at a free port and the block then serves it (R34). -/
def requestTurns (cmds : List Bytes) : List Turn := cmds.flatMap fun c => [.host (.issue c), .block]

/-- `WF(F)`, conjunct by conjunct as R51 writes it. -/
def WF (F : Bytes) : Prop :=
  F.length = 11 ∧ byteAt F 0 = 0x07#8 ∧ (byteAt F 3).toNat ≤ 7 ∧
    (∀ k, (byteAt F 3).toNat ≤ k → k < 7 → byteAt F (4 + k) = 0x00#8) ∧ (0 < (byteAt F 3).toNat → byteAt F 4 ≠ 0x00#8)

end Sys2Proof.Spec

open Sys2Proof.Spec

/-! ### Reset -/

/-- After reset no request is pending, `RSP_VALID` is 0, and `RSP_STATUS` and `RSP_FRAME` hold no value: the spec's own
reset values (D13, in the table of rule R23). -/
def Obligations.ResetStateHoldsNoResponse : Prop :=
  State.reset.reqCmd = none ∧ State.reset.rspValid = 0 ∧ State.reset.rspStatus = none ∧ State.reset.rspFrame = none

/-- A reset drops a request not yet taken, clears the three response registers and changes nothing else: the spec's own
choice (D13, rule R89). That the refusal mark and the run's records stay is the model's reading (assumption 5). -/
def Obligations.ResetActionClearsOnlyTheInterfaceRegisters : Prop :=
  ∀ (s : State) (rest : List Turn), s.schedule = .host .reset :: rest →
    step s = .next { s with schedule := rest, reqCmd := none, rspValid := 0, rspStatus := none, rspFrame := none }

/-- The state after reset (R23) satisfies the invariant of the machine. That no response is listed yet is the model's choice
(assumption 14). -/
def Obligations.ResetSatisfiesInvariant : Prop := State.reset.Inv

/-! ### Host reads -/

/-- `RSP_VALID` can always be read; the read changes nothing but the model's read log (assumption 6). -/
def Obligations.ValidReadReturnsValid : Prop :=
  ∀ (s : State) (rest : List Turn), s.schedule = .host .readValid :: rest →
    step s = .next { s with schedule := rest, reads := s.reads ++ [.valid s.rspValid] }

/-- A read of `RSP_STATUS` returns the value it holds, with no effect but on the model's read log, and faults while it holds
⊥ (D11, rule R17). -/
def Obligations.StatusReadReturnsStatusOrFaults : Prop :=
  ∀ (s : State) (rest : List Turn), s.schedule = .host .readStatus :: rest →
    (∀ c, s.rspStatus = some c → step s = .next { s with schedule := rest, reads := s.reads ++ [.status c] }) ∧
    (s.rspStatus = none → step s = .fault .statusHoldsNoValue)

/-- A read of `RSP_FRAME` returns the frame it holds, with no effect but on the model's read log, and faults while it holds
⊥ (D12, rule R18). -/
def Obligations.FrameReadReturnsFrameOrFaults : Prop :=
  ∀ (s : State) (rest : List Turn), s.schedule = .host .readFrame :: rest →
    (∀ F, s.rspFrame = some F → step s = .next { s with schedule := rest, reads := s.reads ++ [.frame F] }) ∧
    (s.rspFrame = none → step s = .fault .frameHoldsNoValue)

/-- In every state that satisfies the invariant, a host that reads `RSP_STATUS` while `RSP_VALID` is 1 gets the held status, and
one that reads `RSP_FRAME` while the status is OK gets the held frame, which is well-formed (R16 to R18, R51). That the value
read stands in a log is the model's choice (assumption 6). -/
def Obligations.ReadsSucceedWhereAResponseIsHeld : Prop :=
  ∀ s : State, s.Inv →
    (∀ rest, s.schedule = .host .readStatus :: rest → s.rspValid = 1 →
      ∃ c, s.rspStatus = some c ∧ ∃ t, step s = .next t ∧ t.reads = s.reads ++ [.status c]) ∧
    (∀ rest, s.schedule = .host .readFrame :: rest → s.rspStatus = some 0 →
      ∃ F, s.rspFrame = some F ∧ frameWf F = true ∧ ∃ t, step s = .next t ∧ t.reads = s.reads ++ [.frame F])

/-- The machine faults exactly on a read of a register that holds ⊥ (rule R88). R88 also calls an over-long request a refusal;
that no step has the outcome `.refused`, because such a request is a next state with the refusal mark set, is the model's
reading (assumption 1). -/
def Obligations.StepStopsExactlyOnReadsOfNoValue : Prop :=
  ∀ s : State,
    (step s = .fault .statusHoldsNoValue ↔ s.rspStatus = none ∧ ∃ rest, s.schedule = .host .readStatus :: rest) ∧
    (step s = .fault .frameHoldsNoValue ↔ s.rspFrame = none ∧ ∃ rest, s.schedule = .host .readFrame :: rest) ∧
    ∀ r, step s ≠ .refused r

/-! ### The request port and the step -/

/-- Where the block moves next and a request is pending that decodes to an instruction, the step is exec of that
instruction, in the state where the request is taken and the turn is used up (each request starts one operation, R13 and R68,
in one step, R95). That the block moves where the schedule has ended is the model's choice (assumption 3), and so is taking the
request before exec (assumption 16). -/
def Obligations.StepRunsTheDecodedRequest : Prop :=
  ∀ (s : State) (cmd : Bytes) (i : Instr), (s.schedule = [] ∨ ∃ rest, s.schedule = .block :: rest) →
    s.reqCmd = some cmd → decodeRequest s.params cmd = .ok i →
    step s = exec i { s with reqCmd := none, schedule := s.schedule.tail }

/-- A word of the opcode table that decodes is run by the very next step after it is placed. What the word stands for and its
placing are the model's choice (assumption 8), as is that it is decoded under the default parameters, so that it may be over-long
under those of the state (assumption 18; the premise `i.wf s.params` rules that out), that a request already pending is replaced
(assumption 17) and that the request is taken before exec (assumption 16). -/
def Obligations.PlacedTableWordIsRunByTheNextStep : Prop :=
  ∀ (s : State) (nbits w : Nat) (i : Instr), decodeTableWord nbits w = some i → i.wf s.params = true →
    step (s.withFetchWord nbits w) = exec i { s with reqCmd := none }

/-- A turn of the block with no request pending uses up the turn and changes nothing else: the model's choice (assumption 3). -/
def Obligations.IdleBlockTurnChangesNothing : Prop :=
  ∀ s : State, (s.schedule = [] ∨ ∃ rest, s.schedule = .block :: rest) → s.reqCmd = none →
    step s = .next { s with schedule := s.schedule.tail }

/-- At a free port an issued request of at most `MAX_CMD_BYTES` bytes is pending, and so is any request where `MAX_CMD_BYTES` is
∞; a longer one is refused, leaves every register unchanged and sets the refusal mark (D6, rules R14 and R87; that the run goes
on is the model's reading, assumption 1). -/
def Obligations.IssueMakesRequestPendingOrIsRefused : Prop :=
  ∀ (s : State) (cmd : Bytes) (rest : List Turn), s.schedule = .host (.issue cmd) :: rest → s.reqCmd = none →
    (s.params.maxCmdBytes = none → step s = .next { s with schedule := rest, reqCmd := some cmd }) ∧
    (∀ m, s.params.maxCmdBytes = some m → cmd.length ≤ m →
      step s = .next { s with schedule := rest, reqCmd := some cmd }) ∧
    (∀ m, s.params.maxCmdBytes = some m → m < cmd.length →
      step s = .next { s with schedule := rest, refusalMark := true })

/-- A request issued while another is pending waits: the step completes the pending one, as a turn of the block would, and
the issue is still to come (assumption 4, from rule R34). -/
def Obligations.IssueWaitsForThePendingRequest : Prop :=
  ∀ (s : State) (c cmd : Bytes) (rest : List Turn), s.schedule = .host (.issue cmd) :: rest → s.reqCmd = some c →
    step s = step { s with schedule := .block :: s.schedule }

/-! ### The outcomes of ENCODE_WRITE -/

/-- MalformedCommand (R76): the operation completes with status 1 and no frame iff the line does not split into exactly four
tokens. -/
def Obligations.MalformedCommandIffTokenCountNotFour : Prop :=
  ∀ (s : State) (cmd : Bytes), s.params.admits cmd.length = true →
    ((tokenise s.params.wsSet cmd).length ≠ 4 ↔ exec (.encodeWrite cmd) s = .next (afterResponse s 1 none))

/-- InvalidField (R77): the operation completes with status 2 and no frame iff the count is 4 and ParseU gives ⊥ for token 1
at width 8, for token 2 at width 8, or for token 3 at width 64. -/
def Obligations.InvalidFieldIffSomeFieldDoesNotParse : Prop :=
  ∀ (s : State) (cmd : Bytes), s.params.admits cmd.length = true →
    ((∃ t0 t1 t2 t3, tokenise s.params.wsSet cmd = [t0, t1, t2, t3] ∧
        (parseU s.params.plusSignOk 8 t1 = none ∨ parseU s.params.plusSignOk 8 t2 = none ∨
          parseU s.params.plusSignOk 64 t3 = none)) ↔
      exec (.encodeWrite cmd) s = .next (afterResponse s 2 none))

/-- PayloadTooLarge (R78): the operation completes with status 3 and no frame iff the count is 4, all fields parse, and
param_value ≥ 2^56. -/
def Obligations.PayloadTooLargeIffValueNeedsEightBytes : Prop :=
  ∀ (s : State) (cmd : Bytes), s.params.admits cmd.length = true →
    ((∃ f, FieldsParse s.params cmd f ∧ 2 ^ 56 ≤ f.paramValue.toNat) ↔
      exec (.encodeWrite cmd) s = .next (afterResponse s 3 none))

/-- The output guarantee (R69): a command whose fields parse and whose value fits completes with status 0 and an 11-byte
well-formed frame: 0x07, node id, parameter index, L, the minimal big-endian encoding of the value, zeros. -/
def Obligations.AcceptedCommandGivesTheGuaranteedFrame : Prop :=
  ∀ (s : State) (cmd : Bytes) (f : WriteFields), s.params.admits cmd.length = true → FieldsParse s.params cmd f →
    f.paramValue.toNat < 2 ^ 56 →
    ∃ F sig : Bytes, exec (.encodeWrite cmd) s = .next (afterResponse s 0 (some F)) ∧
      F.length = 11 ∧ byteAt F 0 = 0x07#8 ∧ byteAt F 1 = f.nodeId ∧ byteAt F 2 = f.paramIndex ∧
      (byteAt F 3).toNat = sig.length ∧ (F.drop 4).take sig.length = sig ∧
      (∀ k, 4 + sig.length ≤ k → k ≤ 10 → byteAt F k = 0) ∧
      valBE sig = f.paramValue.toNat ∧ (sig ≠ [] → byteAt sig 0 ≠ 0) ∧ frameWf F = true

/-- The frame of an accepted command is the word of the opcode table's row (R48: fixed bits, fields, and the value shifted
left by 8*(7-L)), written out byte by byte. -/
def Obligations.AcceptedCommandGivesTheTableRow : Prop :=
  ∀ (s : State) (cmd : Bytes) (f : WriteFields), s.params.admits cmd.length = true → FieldsParse s.params cmd f →
    f.wf = true → exec (.encodeWrite cmd) s = .next (afterResponse s 0 (some (encodeFrame f)))

/-- Every admitted request completes, with exactly one status, the first that applies: 1, then 2, then 3, then 0 (the order of
R80). A frame comes with status 0 only. -/
def Obligations.EveryAdmittedRequestCompletesInPrecedence : Prop :=
  ∀ (s : State) (cmd : Bytes), s.params.admits cmd.length = true →
    ∃ (c : BitVec 2) (F : Option Bytes), exec (.encodeWrite cmd) s = .next (afterResponse s c F) ∧
      (F.isSome = true ↔ c = 0) ∧
      ((tokenise s.params.wsSet cmd).length ≠ 4 → c = 1) ∧
      ((tokenise s.params.wsSet cmd).length = 4 → (¬ ∃ f, FieldsParse s.params cmd f) → c = 2) ∧
      (∀ f, FieldsParse s.params cmd f → if 2 ^ 56 ≤ f.paramValue.toNat then c = 3 else c = 0)

/-- Exactly the requests of more than `MAX_CMD_BYTES` bytes are refused: no operation runs, every register is unchanged and the
refusal mark is set; one of exactly `MAX_CMD_BYTES` bytes runs, and with `MAX_CMD_BYTES` = ∞ no request is refused (D6, rule
R87). The condition `admits` of the other statements is this bound. That the run goes on is the model's reading
(assumption 1). -/
def Obligations.OverlongRequestIsRefused : Prop :=
  ∀ (s : State) (cmd : Bytes),
    (∀ m, s.params.maxCmdBytes = some m → m < cmd.length →
      exec (.encodeWrite cmd) s = .next { s with refusalMark := true }) ∧
    (∀ m, s.params.maxCmdBytes = some m → cmd.length ≤ m →
      ∃ c F, exec (.encodeWrite cmd) s = .next (afterResponse s c F)) ∧
    (s.params.maxCmdBytes = none → ∃ c F, exec (.encodeWrite cmd) s = .next (afterResponse s c F)) ∧
    (s.params.admits cmd.length = true ↔ ∀ m, s.params.maxCmdBytes = some m → cmd.length ≤ m)

/-- The frame of ENCODE_WRITE: an operation changes the three response registers and the list of responses, to which it adds
one, and nothing else (R11, R81, R96); a refusal changes the refusal mark and nothing else (R87). The model's own here: exec
leaves `REQ_CMD`, which the step clears (assumption 16); a refusal is a next state (assumption 1) and lists no response
(assumption 15). -/
def Obligations.EncodeWriteLeavesTheRestUnchanged : Prop :=
  ∀ (s t : State) (cmd : Bytes), exec (.encodeWrite cmd) s = .next t →
    t.params = s.params ∧ t.reqCmd = s.reqCmd ∧ t.reads = s.reads ∧ t.schedule = s.schedule ∧
    (s.params.admits cmd.length = true →
      t.refusalMark = s.refusalMark ∧ ∃ r, t.responses = s.responses ++ [r]) ∧
    (s.params.admits cmd.length = false →
      t.refusalMark = true ∧ t.rspValid = s.rspValid ∧ t.rspStatus = s.rspStatus ∧ t.rspFrame = s.rspFrame ∧
        t.responses = s.responses)

/-- The result of an operation depends only on the command bytes and the parameters (R11, R73): from any two states with the
same parameters, whatever their registers hold and whatever errors came before (R82), the three registers end equal. -/
def Obligations.ResultDependsOnlyOnCommandAndParameters : Prop :=
  ∀ (s t : State) (cmd : Bytes), s.params = t.params → s.params.admits cmd.length = true →
    ∃ s' t' : State, exec (.encodeWrite cmd) s = .next s' ∧ exec (.encodeWrite cmd) t = .next t' ∧
      s'.rspValid = t'.rspValid ∧ s'.rspStatus = t'.rspStatus ∧ s'.rspFrame = t'.rspFrame ∧
      s'.responses.getLast? = t'.responses.getLast?

/-- Token 0 is not examined: lines that differ in it alone run alike (D8, rule R57). -/
def Obligations.KeywordIsNotExamined : Prop :=
  ∀ (s : State) (c₁ c₂ k₁ k₂ : Bytes) (toks : List Bytes),
    tokenise s.params.wsSet c₁ = k₁ :: toks → tokenise s.params.wsSet c₂ = k₂ :: toks →
    s.params.admits c₁.length = true → s.params.admits c₂.length = true →
    exec (.encodeWrite c₁) s = exec (.encodeWrite c₂) s

/-- Two accepted commands give the same frame iff their triples are equal (R72). -/
def Obligations.EqualFramesIffEqualFields : Prop :=
  ∀ (s : State) (c₁ c₂ F₁ F₂ : Bytes) (f₁ f₂ : WriteFields),
    exec (.encodeWrite c₁) s = .next (afterResponse s 0 (some F₁)) →
    exec (.encodeWrite c₂) s = .next (afterResponse s 0 (some F₂)) →
    FieldsParse s.params c₁ f₁ → FieldsParse s.params c₂ f₂ → (F₁ = F₂ ↔ f₁ = f₂)

/-! ### Tokenising -/

/-- Every line has one split into tokens, by the grammar of R40, and Tokenise gives it (R55). -/
def Obligations.TokeniseIsTheUniqueSplitOfTheGrammar : Prop :=
  ∀ (ws : List Byte) (cmd : Bytes) (toks : List Bytes), IsLine ws toks cmd ↔ tokenise ws cmd = toks

/-- Whitespace before and after a line, a line terminator included, has no effect on the split (rule R15 derives it). -/
def Obligations.OuterWhitespaceHasNoEffect : Prop :=
  ∀ (ws : List Byte) (gap cmd : Bytes), (∀ b ∈ gap, b ∈ ws) →
    tokenise ws (gap ++ cmd) = tokenise ws cmd ∧ tokenise ws (cmd ++ gap) = tokenise ws cmd

/-- Tokenising keeps every token byte, in order, and drops exactly the whitespace (R40, R55). -/
def Obligations.TokensHoldTheTokenBytesInOrder : Prop :=
  ∀ (ws : List Byte) (cmd : Bytes),
    (tokenise ws cmd).flatten = cmd.filter (fun b => !ws.contains b) ∧ ∀ tok ∈ tokenise ws cmd, tok ≠ []

/-! ### The field parse -/

/-- ParseU gives the value v iff the token is a numeral (an optional `+` where allowed, then digits) whose exact decimal value
is v; a value of 2^w or more is never reduced, so no v is given for it (R58). -/
def Obligations.ParseGivesTheExactValueOfNumerals : Prop :=
  ∀ (plusOk : Bool) (w : Nat) (tok : Bytes) (v : BitVec w),
    parseU plusOk w tok = some v ↔ ∃ ds, IsNumeral plusOk tok ds ∧ decimalValue ds = v.toNat

/-- Two accepted numerals parse to the same value iff they differ only in a leading `+` or in leading zeros (rule R63
derives it). -/
def Obligations.EqualValuesDifferOnlyInPlusAndLeadingZeros : Prop :=
  ∀ (plusOk : Bool) (w : Nat) (t₁ t₂ d₁ d₂ : Bytes) (v₁ v₂ : BitVec w),
    IsNumeral plusOk t₁ d₁ → IsNumeral plusOk t₂ d₂ → parseU plusOk w t₁ = some v₁ → parseU plusOk w t₂ = some v₂ →
    (v₁ = v₂ ↔ d₁.dropWhile (· == 0x30#8) = d₂.dropWhile (· == 0x30#8))

/-- A digit loop in a register of width w that gives ⊥ at the step where the value leaves it has the result of the unbounded
loop followed by the range check (rule R63 derives it). -/
def Obligations.CheckedRegisterLoopEqualsUnboundedLoop : Prop :=
  ∀ (w : Nat) (ds : Bytes), accumulateChecked w 0 ds = (accumulate 0 ds).filter (fun v => decide (v < 2 ^ w))

/-! ### The payload and the frame -/

/-- BE8 (R64): eight bytes, the k-th being (v >> 8*(7-k)) & 0xFF, so that they are the big-endian bytes of the value. -/
def Obligations.BytesOfAValueAreItsBigEndianBytes : Prop :=
  ∀ v : BitVec 64, (be8 v).length = 8 ∧
    (∀ k, k < 8 → (byteAt (be8 v) k).toNat = (v.toNat >>> (8 * (7 - k))) % 256) ∧ valBE (be8 v) = v.toNat

/-- StripLeadingZeros (R65): only the leading run of zero bytes goes; the value is kept, the first significant byte is nonzero,
and value 0 has none. -/
def Obligations.StrippingRemovesOnlyTheLeadingZeros : Prop :=
  ∀ v : BitVec 64, ∃ i, i ≤ 8 ∧ stripLeadingZeros (be8 v) = (be8 v).drop i ∧
    (∀ k, k < i → byteAt (be8 v) k = 0) ∧ (i < 8 → byteAt (be8 v) i ≠ 0) ∧
    valBE (stripLeadingZeros (be8 v)) = v.toNat ∧
    (stripLeadingZeros (be8 v) ≠ [] → byteAt (stripLeadingZeros (be8 v)) 0 ≠ 0) ∧
    (v = 0 → stripLeadingZeros (be8 v) = [])

/-- The payload length is the least number of bytes that holds the value, by the thresholds of the table (rule R70
derives it). -/
def Obligations.PayloadLengthIsLeastAndFollowsTheThresholds : Prop :=
  ∀ v : BitVec 64, (significantBytes v).length = payloadLength v ∧
    ∀ k, (significantBytes v).length ≤ k ↔ v.toNat < 256 ^ k

/-- Payload slots (R47): slot k holds significant byte k for k < L and 0x00 for k ≥ L; a meaningful slot 0 is never 0x00. -/
def Obligations.SlotsHoldSignificantBytesThenZeros : Prop :=
  ∀ (s t : State) (cmd F : Bytes) (f : WriteFields), s.params.admits cmd.length = true → FieldsParse s.params cmd f →
    exec (.encodeWrite cmd) s = .next t → t.rspFrame = some F →
    ∀ k, k < 7 →
      byteAt F (4 + k) = (if k < (byteAt F 3).toNat then byteAt (significantBytes f.paramValue) k else 0) ∧
      (0 < (byteAt F 3).toNat → byteAt F 4 ≠ 0)

/-- A frame the block produces matches the row's match and mask, and its 56-bit payload area is the value shifted left by
8*(7-L) (rule R48 derives it). -/
def Obligations.ProducedWordMatchesTheTableMask : Prop :=
  ∀ (s t : State) (cmd F : Bytes) (f : WriteFields), s.params.admits cmd.length = true → FieldsParse s.params cmd f →
    exec (.encodeWrite cmd) s = .next t → t.rspFrame = some F →
    frameWord F &&& 0xFF0000F800000000000000#88 = 0x0700000000000000000000#88 ∧
    (frameWord F).toNat % 2 ^ 56 = f.paramValue.toNat * 2 ^ (8 * (7 - (byteAt F 3).toNat))

/-- `val_BE(s)` is the sum of the bytes, each times 256^(|s|-1-k) (R6). -/
def Obligations.BigEndianValueIsThePositionalSum : Prop :=
  ∀ s : Bytes, valBE s = ((List.range s.length).map fun k => (byteAt s k).toNat * 256 ^ (s.length - 1 - k)).sum

/-- The 88-bit word and the 11 bytes are two views of one frame: F[0] is the most significant byte of W (D10, rule R6). -/
def Obligations.WordAndBytesAreTwoViewsOfTheFrame : Prop :=
  (∀ F : Bytes, F.length = 11 → wordFrame (frameWord F) = F) ∧
  (∀ (W : FrameWord), frameWord (wordFrame W) = W ∧
    ∀ i, i ≤ 10 → byteAt (wordFrame W) i = W.extractLsb' (80 - 8 * i) 8)

/-- Round trip (the law of R71): decoding the frame of well-formed fields gives back all three, for every value of each. -/
def Obligations.DecodeOfEncodedFrameGivesTheFields : Prop :=
  ∀ f : WriteFields, f.wf = true → decodeFrame (encodeFrame f) = .ok f

/-- The other direction: a byte string that decodes is the frame of the fields it decodes to, and they are well-formed. -/
def Obligations.EncodeOfDecodedFrameGivesTheFrame : Prop :=
  ∀ (F : Bytes) (f : WriteFields), decodeFrame F = .ok f → f.wf = true ∧ encodeFrame f = F

/-- The decoder accepts exactly the well-formed frames, the check `frameWf` is WF as R51 writes it, and each case that R50 lists is
rejected by its name. The order of the names where several cases hold is the model's choice (assumption 8). -/
def Obligations.DecoderAcceptsExactlyWellFormedFrames : Prop :=
  ∀ F : Bytes, ((∃ f, decodeFrame F = .ok f) ↔ WF F) ∧ (frameWf F = true ↔ WF F) ∧
    (F.length ≠ 11 → decodeFrame F = .error .wrongLength) ∧
    (F.length = 11 → byteAt F 0 ≠ 0x07#8 → decodeFrame F = .error .unknownFunctionCode) ∧
    (F.length = 11 → byteAt F 0 = 0x07#8 → 7 < (byteAt F 3).toNat → decodeFrame F = .error .payloadLengthOutOfRange) ∧
    (F.length = 11 → byteAt F 0 = 0x07#8 → (byteAt F 3).toNat ≤ 7 →
      (∃ k, (byteAt F 3).toNat ≤ k ∧ k < 7 ∧ byteAt F (4 + k) ≠ 0x00#8) → decodeFrame F = .error .paddingNotZero) ∧
    (F.length = 11 → byteAt F 0 = 0x07#8 → (byteAt F 3).toNat ≤ 7 →
      (∀ k, (byteAt F 3).toNat ≤ k → k < 7 → byteAt F (4 + k) = 0x00#8) →
      0 < (byteAt F 3).toNat → byteAt F 4 = 0x00#8 → decodeFrame F = .error .payloadNotMinimal)

/-- The command `write n p v` of any fields parses to exactly these fields, under the default whitespace set (R39, R41, R51). -/
def Obligations.CanonicalCommandLineParsesToItsFields : Prop :=
  ∀ (p : Params) (f : WriteFields), p.wsSet = Params.defaultWsSet → FieldsParse p (commandLine f) f

/-- The frames the block can produce are exactly the well-formed frames (R51), under the default parameters (rule R51
derives it). -/
def Obligations.ProducibleFramesAreExactlyWellFormedFrames : Prop :=
  ∀ (s : State) (F : Bytes), s.params = Params.default →
    ((∃ cmd, exec (.encodeWrite cmd) s = .next (afterResponse s 0 (some F))) ↔ frameWf F = true)

/-- Every word of the opcode table's row that is a well-formed frame, placed as the next request, is run by one step to a
response that carries that very frame (R51, R71), where the state has the default parameters, under which words are decoded
(assumption 18). The placing is the model's choice (assumption 8), as is that it replaces a request already pending
(assumption 17). -/
def Obligations.EveryTableWordReproducesItsFrame : Prop :=
  ∀ (s : State) (W : FrameWord), s.params = Params.default → frameWf (wordFrame W) = true →
    step (s.withFetchWord 88 W.toNat) = .next (afterResponse { s with reqCmd := none } 0 (some (wordFrame W)))

/-- Words of the opcode table's row, written out from the frame format (R48), decode to commands, and words that are no frame do
not. That a word of the row stands for a command, the one that produces it under the default parameters, is the model's choice
(assumptions 8 and 18). -/
def Obligations.WrittenOutTableWordsDecode : Prop :=
  decodeTableWord 88 0x0701020202370000000000 =
      some (.encodeWrite [0x77#8, 0x72#8, 0x69#8, 0x74#8, 0x65#8, 0x20#8, 0x31#8, 0x20#8, 0x32#8, 0x20#8,
        0x35#8, 0x36#8, 0x37#8]) ∧
  decodeTableWord 88 0x0701010000000000000000 =
      some (.encodeWrite [0x77#8, 0x72#8, 0x69#8, 0x74#8, 0x65#8, 0x20#8, 0x31#8, 0x20#8, 0x31#8, 0x20#8, 0x30#8]) ∧
  decodeTableWord 88 0x0801020202370000000000 = none ∧
  decodeTableWord 88 0x0701020202370000000001 = none

/-! ### The machine as a whole -/

/-- Every step keeps the invariant: the response registers stay consistent with each other and with the last response, every
frame stays well-formed, and a pending request stays within its bound. -/
def Obligations.StepKeepsInvariant : Prop := ∀ s t : State, s.Inv → step s = .next t → t.Inv

/-- No step changes a parameter: "Reset changes no parameter" (rules R5, R89), and nothing else does. That they stand in State is
the model's choice (assumption 2). -/
def Obligations.StepKeepsParameters : Prop := ∀ s t : State, step s = .next t → t.params = s.params

/-- The refusal mark stays for the rest of the run (D6, rule R87). That a reset lies within the run and leaves the mark is the
model's reading (assumption 5). -/
def Obligations.RefusalMarkStays : Prop :=
  ∀ s t : State, step s = .next t → s.refusalMark = true → t.refusalMark = true

/-- Nothing but reset clears `RSP_VALID` (D11, rule R16). -/
def Obligations.OnlyResetClearsValid : Prop :=
  ∀ s t : State, step s = .next t → s.rspValid = 1 → t.rspValid ≠ 1 → ∃ rest, s.schedule = .host .reset :: rest

/-- The response registers change as one unit (R31): a step leaves all three as they were, or clears all three by reset, or
writes the whole response to the pending request, which it takes; and only then the list of responses grows, by that one. That
a reset leaves the responses (assumption 5) and that a refused request adds none (assumption 15) is the model's reading. -/
def Obligations.ResponseRegistersChangeAsOneUnit : Prop :=
  ∀ s t : State, step s = .next t →
    (t.rspValid = s.rspValid ∧ t.rspStatus = s.rspStatus ∧ t.rspFrame = s.rspFrame ∧ t.responses = s.responses) ∨
    ((∃ rest, s.schedule = .host .reset :: rest) ∧ t.rspValid = 0 ∧ t.rspStatus = none ∧ t.rspFrame = none ∧
      t.responses = s.responses) ∨
    (∃ cmd c F, s.reqCmd = some cmd ∧ t.reqCmd = none ∧ s.params.admits cmd.length = true ∧
      exec (.encodeWrite cmd) s = .next (afterResponse s c F) ∧
      t.rspValid = 1 ∧ t.rspStatus = some c ∧ t.rspFrame = F ∧ t.responses = s.responses ++ [{ status := c, frame := F }])

/-- A run of requests (R34, R96): issued one after the other and each served before the next, every request within the bound
gets exactly one response, in request order, each a function of its own bytes; an over-long one gets none and sets the mark
(R87). The model's own here: the run goes on after a refusal (assumption 1), no response is listed for it (assumption 15), the
block's turn after it changes nothing (assumption 3), and issuing and serving are two turns (assumptions 3 and 5). -/
def Obligations.RunAnswersEveryRequestInOrder : Prop :=
  ∀ (s : State) (cmds : List Bytes), s.reqCmd = none → s.schedule = requestTurns cmds →
    ∃ t : State, Host.Core.run Sys2Proof.core (2 * cmds.length) s = .next t ∧ t.schedule = [] ∧ t.reqCmd = none ∧
      t.params = s.params ∧
      t.responses = s.responses ++
        (cmds.filter fun c => s.params.admits c.length).map (fun c => responseOf (encodeWrite s.params c)) ∧
      t.refusalMark = (s.refusalMark || cmds.any fun c => !s.params.admits c.length)

/-- Two callers (R38): whichever of two requests is taken first, each gets the same response; only their order differs
(D14). That issuing and serving are two turns of a schedule is the model's form (assumptions 3 and 5). -/
def Obligations.OrderOfCallersChangesNoResponse : Prop :=
  ∀ (s : State) (a b : Bytes), s.reqCmd = none → s.params.admits a.length = true → s.params.admits b.length = true →
    ∃ (t t' : State) (ra rb : Response),
      Host.Core.run Sys2Proof.core 4 ({ s with schedule := requestTurns [a, b] } : State) = .next t ∧
      Host.Core.run Sys2Proof.core 4 ({ s with schedule := requestTurns [b, a] } : State) = .next t' ∧
      t.responses = s.responses ++ [ra, rb] ∧ t'.responses = s.responses ++ [rb, ra]
end

