-- ==== Sys2Proof/Laws/Parse.lean ====
section
/-! SUPPORT. What the unsigned parse does (rules R41, R58). -/

namespace Sys2Proof.Machine

theorem isDigit_iff (c : Byte) : isDigit c = true ↔ 0x30 ≤ c.toNat ∧ c.toNat ≤ 0x39 := by
  simp [isDigit]

/-- The digit loop succeeds exactly on digits, and adds their value below the digits already read. -/
theorem accumulate_eq_some (v n : Nat) (ds : Bytes) :
    accumulate v ds = some n ↔
      (∀ c ∈ ds, 0x30 ≤ c.toNat ∧ c.toNat ≤ 0x39) ∧ n = v * 10 ^ ds.length + decimalValue ds := by
  induction ds generalizing v with
  | nil => simp [accumulate, decimalValue, eq_comm]
  | cons c cs ih =>
    by_cases hc : isDigit c = true
    · have hc' := (isDigit_iff c).mp hc
      simp only [accumulate, hc, if_true, ih, List.mem_cons, forall_eq_or_imp, hc', and_self, true_and,
        decimalValue, List.length_cons, Nat.pow_succ]
      refine and_congr_right fun _ => ?_
      constructor <;> intro h <;> rw [h] <;> ring
    · have hc' : ¬ (0x30 ≤ c.toNat ∧ c.toNat ≤ 0x39) := fun h => hc ((isDigit_iff c).mpr h)
      simp only [accumulate, hc, Bool.false_eq_true, if_false, reduceCtorEq, false_iff]
      exact fun h => hc' (h.1 c (by simp))

/-- ParseU gives a value iff the token, less its optional plus, is a nonempty run of digits of that value, in range. -/
theorem parseU_eq_some (plusOk : Bool) (w : Nat) (tok : Bytes) (v : BitVec w) :
    parseU plusOk w tok = some v ↔
      dropPlus plusOk tok ≠ [] ∧ (∀ c ∈ dropPlus plusOk tok, 0x30 ≤ c.toNat ∧ c.toNat ≤ 0x39) ∧
        decimalValue (dropPlus plusOk tok) = v.toNat := by
  unfold parseU
  rcases hds : dropPlus plusOk tok with _ | ⟨c, cs⟩
  · simp
  rcases hacc : accumulate 0 (c :: cs) with _ | n <;> simp only [hacc]
  · constructor
    · intro h
      cases h
    · intro ⟨_, hd, _⟩
      have := (accumulate_eq_some 0 _ (c :: cs)).mpr ⟨hd, rfl⟩
      simp [hacc] at this
  · obtain ⟨hd, rfl⟩ := (accumulate_eq_some 0 n (c :: cs)).mp hacc
    simp only [Nat.zero_mul, Nat.zero_add]
    constructor
    · intro h
      split at h
      · rename_i hlt
        cases h
        exact ⟨by simp, hd, by simp [Nat.mod_eq_of_lt hlt]⟩
      · cases h
    · rintro ⟨_, _, hv⟩
      rw [hv, if_pos v.isLt]
      simp

end Sys2Proof.Machine
end

