-- ==== Sys2Proof/Laws/Payload.lean ====
section
/-! SUPPORT. Big-endian values and the significant bytes of a value (rules R6, R64, R65). -/

namespace Sys2Proof

theorem valBE_nil : valBE [] = 0 := rfl

/-- A string after another: the first moves up by the second's length. -/
theorem valBE_append (s t : Bytes) : valBE (s ++ t) = valBE s * 256 ^ t.length + valBE t := by
  induction t using List.reverseRecOn with
  | nil => simp [valBE]
  | append_singleton t b ih =>
    have h : ∀ (u : Bytes), valBE (u ++ [b]) = valBE u * 256 + b.toNat := by intro u; simp [valBE]
    rw [← List.append_assoc, h, ih, h]
    simp only [List.length_append, List.length_singleton, Nat.pow_succ]
    ring

theorem valBE_cons (b : Byte) (s : Bytes) : valBE (b :: s) = b.toNat * 256 ^ s.length + valBE s := by
  rw [← List.singleton_append, valBE_append]
  simp [valBE]

/-- A string of n bytes has a value below 256^n. -/
theorem valBE_lt (s : Bytes) : valBE s < 256 ^ s.length := by
  induction s with
  | nil => simp [valBE]
  | cons b s ih =>
    rw [valBE_cons, List.length_cons, Nat.pow_succ]
    have := b.isLt
    nlinarith

/-- Zero bytes have value 0. -/
theorem valBE_replicate_zero (n : Nat) : valBE (List.replicate n (0 : Byte)) = 0 := by
  induction n with
  | zero => rfl
  | succ n ih => rw [List.replicate_succ, valBE_cons, ih]; simp

/-- Strings of one length and one value are equal. -/
theorem valBE_inj {s t : Bytes} (hl : s.length = t.length) (hv : valBE s = valBE t) : s = t := by
  induction s generalizing t with
  | nil => exact (List.length_eq_zero_iff.mp hl.symm).symm
  | cons b s ih =>
    cases t with
    | nil => simp at hl
    | cons c t =>
      rw [List.length_cons, List.length_cons, Nat.succ_inj] at hl
      rw [valBE_cons, valBE_cons, hl] at hv
      have hs := valBE_lt s
      have ht := valBE_lt t
      rw [hl] at hs
      have hb : b.toNat = c.toNat := by
        rcases Nat.lt_trichotomy b.toNat c.toNat with h | h | h
        · nlinarith
        · exact h
        · nlinarith
      rw [hb, Nat.add_left_cancel_iff] at hv
      rw [BitVec.eq_of_toNat_eq hb, ih hl hv]

namespace Machine

/-- Each byte of BE8, as a number. -/
theorem be8_byte (v : BitVec 64) (k : Nat) :
    (((v >>> (8 * (7 - k))) &&& 0xFF#64).setWidth 8).toNat = v.toNat / 256 ^ (7 - k) % 256 := by
  have h : (0xFF#64).toNat = 2 ^ 8 - 1 := by decide
  rw [BitVec.toNat_setWidth, BitVec.toNat_and, h, Nat.and_two_pow_sub_one_eq_mod, BitVec.toNat_ushiftRight,
    Nat.shiftRight_eq_div_pow, Nat.mod_mod_of_dvd _ (by norm_num), Nat.pow_mul]

theorem be8_length (v : BitVec 64) : (be8 v).length = 8 := by simp [be8]

/-- Stripping removes zero bytes in front and stops at the first nonzero byte. -/
theorem stripLeadingZeros_spec (be : Bytes) :
    ∃ i, i ≤ be.length ∧ stripLeadingZeros be = be.drop i ∧ be.take i = List.replicate i 0 ∧
      (i < be.length → byteAt be i ≠ 0) := by
  induction be with
  | nil => exact ⟨0, by simp [stripLeadingZeros]⟩
  | cons b be ih =>
    by_cases hb : b = 0
    · obtain ⟨i, hi, hs, ht, hn⟩ := ih
      refine ⟨i + 1, by simpa using hi, ?_, ?_, ?_⟩
      · simpa [stripLeadingZeros, hb] using hs
      · simp [ht, hb, List.replicate_succ]
      · simpa [byteAt] using hn
    · have hb' : (b == 0) = false := by simpa using hb
      exact ⟨0, by simp, by simp only [stripLeadingZeros, List.dropWhile_cons, hb', Bool.false_eq_true, if_false, List.drop_zero],
        by simp, fun _ => by simpa only [byteAt, List.getD_cons_zero] using hb⟩

/-- The frame before and after padding: 4 header bytes, the significant bytes, zeros. -/
theorem assemble_eq (f : WriteFields) (sig : Bytes) :
    assemble f sig = Config.fcCfgw :: f.nodeId :: f.paramIndex :: BitVec.ofNat 8 sig.length
      :: (sig ++ List.replicate (7 - sig.length) 0) := by
  have : 11 - (sig.length + 4) = 7 - sig.length := by omega
  simp [assemble, Config.frameLen, this]

/-- The second half of the operation: a frame where the significant bytes fit, PayloadTooLarge where they do not. -/
theorem frameOf_cases (f : WriteFields) :
    ((significantBytes f.paramValue).length ≤ 7 ∧ frameOf f = .ok (assemble f (significantBytes f.paramValue))) ∨
    (7 < (significantBytes f.paramValue).length ∧ frameOf f = .error .payloadTooLarge) := by
  by_cases h : 7 < (significantBytes f.paramValue).length
  · exact .inr ⟨h, by simp [frameOf, checkLength, h]⟩
  · exact .inl ⟨by omega, by simp [frameOf, checkLength, h]⟩

end Machine

end Sys2Proof
end

