-- ==== Sys2Proof/Laws/State.lean ====
section
/-! SUPPORT. What each state update leaves in each field, so that no later proof unfolds a record update. -/

namespace Sys2Proof.Machine

variable (s : State)

/-! ### The bound -/

/-- With `MAX_CMD_BYTES` = ∞ every length is admitted. -/
theorem admits_of_none {p : Params} (h : p.maxCmdBytes = none) (n : Nat) : p.admits n = true := by
  simp only [Params.admits, h]

/-- With a bound, exactly the lengths up to it are admitted. -/
theorem admits_of_some {p : Params} {m : Nat} (h : p.maxCmdBytes = some m) (n : Nat) : p.admits n = decide (n ≤ m) := by
  simp only [Params.admits, h]

/-! ### writeResponse -/

@[simp] theorem writeResponse_params (r : Response) : (writeResponse r s).params = s.params := rfl
@[simp] theorem writeResponse_reqCmd (r : Response) : (writeResponse r s).reqCmd = s.reqCmd := rfl
@[simp] theorem writeResponse_rspValid (r : Response) : (writeResponse r s).rspValid = 1 := rfl
@[simp] theorem writeResponse_rspStatus (r : Response) : (writeResponse r s).rspStatus = some r.status := rfl
@[simp] theorem writeResponse_rspFrame (r : Response) : (writeResponse r s).rspFrame = r.frame := rfl
@[simp] theorem writeResponse_refusalMark (r : Response) : (writeResponse r s).refusalMark = s.refusalMark := rfl
@[simp] theorem writeResponse_responses (r : Response) : (writeResponse r s).responses = s.responses ++ [r] := rfl
@[simp] theorem writeResponse_reads (r : Response) : (writeResponse r s).reads = s.reads := rfl
@[simp] theorem writeResponse_schedule (r : Response) : (writeResponse r s).schedule = s.schedule := rfl

/-! ### refuseRequest -/

@[simp] theorem refuseRequest_params : (refuseRequest s).params = s.params := rfl
@[simp] theorem refuseRequest_reqCmd : (refuseRequest s).reqCmd = s.reqCmd := rfl
@[simp] theorem refuseRequest_rspValid : (refuseRequest s).rspValid = s.rspValid := rfl
@[simp] theorem refuseRequest_rspStatus : (refuseRequest s).rspStatus = s.rspStatus := rfl
@[simp] theorem refuseRequest_rspFrame : (refuseRequest s).rspFrame = s.rspFrame := rfl
@[simp] theorem refuseRequest_refusalMark : (refuseRequest s).refusalMark = true := rfl
@[simp] theorem refuseRequest_responses : (refuseRequest s).responses = s.responses := rfl
@[simp] theorem refuseRequest_reads : (refuseRequest s).reads = s.reads := rfl
@[simp] theorem refuseRequest_schedule : (refuseRequest s).schedule = s.schedule := rfl

/-! ### takeRequest -/

@[simp] theorem takeRequest_params : (takeRequest s).params = s.params := rfl
@[simp] theorem takeRequest_reqCmd : (takeRequest s).reqCmd = none := rfl
@[simp] theorem takeRequest_rspValid : (takeRequest s).rspValid = s.rspValid := rfl
@[simp] theorem takeRequest_rspStatus : (takeRequest s).rspStatus = s.rspStatus := rfl
@[simp] theorem takeRequest_rspFrame : (takeRequest s).rspFrame = s.rspFrame := rfl
@[simp] theorem takeRequest_refusalMark : (takeRequest s).refusalMark = s.refusalMark := rfl
@[simp] theorem takeRequest_responses : (takeRequest s).responses = s.responses := rfl
@[simp] theorem takeRequest_reads : (takeRequest s).reads = s.reads := rfl
@[simp] theorem takeRequest_schedule : (takeRequest s).schedule = s.schedule := rfl

/-! ### recordRead -/

@[simp] theorem recordRead_params (v : ReadValue) : (recordRead v s).params = s.params := rfl
@[simp] theorem recordRead_reqCmd (v : ReadValue) : (recordRead v s).reqCmd = s.reqCmd := rfl
@[simp] theorem recordRead_rspValid (v : ReadValue) : (recordRead v s).rspValid = s.rspValid := rfl
@[simp] theorem recordRead_rspStatus (v : ReadValue) : (recordRead v s).rspStatus = s.rspStatus := rfl
@[simp] theorem recordRead_rspFrame (v : ReadValue) : (recordRead v s).rspFrame = s.rspFrame := rfl
@[simp] theorem recordRead_refusalMark (v : ReadValue) : (recordRead v s).refusalMark = s.refusalMark := rfl
@[simp] theorem recordRead_responses (v : ReadValue) : (recordRead v s).responses = s.responses := rfl
@[simp] theorem recordRead_reads (v : ReadValue) : (recordRead v s).reads = s.reads ++ [v] := rfl
@[simp] theorem recordRead_schedule (v : ReadValue) : (recordRead v s).schedule = s.schedule := rfl

/-! ### resetBlock -/

@[simp] theorem resetBlock_params : (resetBlock s).params = s.params := rfl
@[simp] theorem resetBlock_reqCmd : (resetBlock s).reqCmd = none := rfl
@[simp] theorem resetBlock_rspValid : (resetBlock s).rspValid = 0 := rfl
@[simp] theorem resetBlock_rspStatus : (resetBlock s).rspStatus = none := rfl
@[simp] theorem resetBlock_rspFrame : (resetBlock s).rspFrame = none := rfl
@[simp] theorem resetBlock_refusalMark : (resetBlock s).refusalMark = s.refusalMark := rfl
@[simp] theorem resetBlock_responses : (resetBlock s).responses = s.responses := rfl
@[simp] theorem resetBlock_reads : (resetBlock s).reads = s.reads := rfl
@[simp] theorem resetBlock_schedule : (resetBlock s).schedule = s.schedule := rfl

/-! ### Completing, and issuing -/

/-- Every operation ends by writing the response of its result. -/
theorem complete_eq_writeResponse (r : Except EncodeError Bytes) : complete r s = writeResponse (responseOf r) s := by
  cases r <;> rfl

/-- A request at a free port is pending, or refused. -/
theorem issueRequest_cases (cmd : Bytes) :
    (s.params.admits cmd.length = true ∧ issueRequest cmd s = { s with reqCmd := some cmd }) ∨
    (s.params.admits cmd.length = false ∧ issueRequest cmd s = refuseRequest s) := by
  by_cases h : s.params.admits cmd.length = true
  · exact .inl ⟨h, if_pos h⟩
  · exact .inr ⟨by simpa using h, if_neg h⟩

/-- The placed instruction's request is pending. -/
@[simp] theorem placeRequest_reqCmd (i : Instr) : (placeRequest i s).reqCmd = some (encodeRequest i) := rfl

/-- The block moves next. -/
@[simp] theorem placeRequest_schedule (i : Instr) : (placeRequest i s).schedule = .block :: s.schedule := rfl

end Sys2Proof.Machine
end

