-- ==== Sys2Proof/Laws/Exec.lean ====
section
/-! SUPPORT. What ENCODE_WRITE can do (rules R68, R87). -/

namespace Sys2Proof.Machine

/-- An instruction completes with the response of its result, or is refused as over-long. -/
theorem exec_cases (cmd : Bytes) (s : State) :
    (s.params.admits cmd.length = true ∧
      exec (.encodeWrite cmd) s = .next (writeResponse (responseOf (encodeWrite s.params cmd)) s)) ∨
    (s.params.admits cmd.length = false ∧ exec (.encodeWrite cmd) s = .next (refuseRequest s)) := by
  by_cases h : s.params.admits cmd.length = true
  · exact .inl ⟨h, by simp only [exec, execEncodeWrite, if_pos h, complete_eq_writeResponse]⟩
  · exact .inr ⟨by simpa using h, by simp only [exec, execEncodeWrite, if_neg h]⟩

/-- The token count decides whether there are three fields to parse. -/
theorem checkCount_cases (toks : List Bytes) :
    (∃ t0 t1 t2 t3, toks = [t0, t1, t2, t3] ∧ checkCount toks = .ok (t1, t2, t3)) ∨
    (toks.length ≠ 4 ∧ checkCount toks = .error .malformedCommand) := by
  match toks with
  | [] | [_] | [_, _] | [_, _, _] => exact .inr ⟨by simp, rfl⟩
  | [t0, t1, t2, t3] => exact .inl ⟨t0, t1, t2, t3, rfl, rfl⟩
  | _ :: _ :: _ :: _ :: _ :: _ => exact .inr ⟨by simp, rfl⟩

/-- All three fields parse, or the operation fails with InvalidField. -/
theorem checkFields_cases (plusOk : Bool) (t1 t2 t3 : Bytes) :
    (∃ n x v, parseU plusOk 8 t1 = some n ∧ parseU plusOk 8 t2 = some x ∧ parseU plusOk 64 t3 = some v ∧
      checkFields plusOk (t1, t2, t3) = .ok ⟨n, x, v⟩) ∨
    ((parseU plusOk 8 t1 = none ∨ parseU plusOk 8 t2 = none ∨ parseU plusOk 64 t3 = none) ∧
      checkFields plusOk (t1, t2, t3) = .error .invalidField) := by
  unfold checkFields
  cases h1 : parseU plusOk 8 t1 <;> cases h2 : parseU plusOk 8 t2 <;> cases h3 : parseU plusOk 64 t3 <;> simp

/-- The three ways the first half of the operation ends, in the precedence of R80. -/
theorem parseCommand_cases (p : Params) (cmd : Bytes) :
    ((tokenise p.wsSet cmd).length ≠ 4 ∧ parseCommand p cmd = .error .malformedCommand) ∨
    (∃ t0 t1 t2 t3, tokenise p.wsSet cmd = [t0, t1, t2, t3] ∧
      ((∃ n x v, parseU p.plusSignOk 8 t1 = some n ∧ parseU p.plusSignOk 8 t2 = some x ∧
          parseU p.plusSignOk 64 t3 = some v ∧ parseCommand p cmd = .ok ⟨n, x, v⟩) ∨
        ((parseU p.plusSignOk 8 t1 = none ∨ parseU p.plusSignOk 8 t2 = none ∨ parseU p.plusSignOk 64 t3 = none) ∧
          parseCommand p cmd = .error .invalidField))) := by
  rcases checkCount_cases (tokenise p.wsSet cmd) with ⟨t0, t1, t2, t3, ht, hc⟩ | ⟨hl, hc⟩
  · have hp : parseCommand p cmd = checkFields p.plusSignOk (t1, t2, t3) := by simp only [parseCommand, hc]
    exact .inr ⟨t0, t1, t2, t3, ht, hp ▸ checkFields_cases p.plusSignOk t1 t2 t3⟩
  · exact .inl ⟨hl, by simp only [parseCommand, hc]⟩

/-- The operation is its two halves. -/
theorem encodeWrite_of_parse (p : Params) (cmd : Bytes) :
    (∀ e, parseCommand p cmd = .error e → encodeWrite p cmd = .error e) ∧
    (∀ f, parseCommand p cmd = .ok f → encodeWrite p cmd = frameOf f) := by
  constructor <;> intro x h <;> simp only [encodeWrite, h]

end Sys2Proof.Machine
end

