-- ==== Sys2Proof/Laws/PerInstr.lean ====
section
/-! SUPPORT. Facts of every instruction as syntax, one lemma per constructor. -/

namespace Sys2Proof.Laws.RequestRoundTrip

/-- A well-formed instruction's request decodes to it (R15, R68). -/
def Statement (i : Instr) : Prop := ∀ p : Params, i.wf p = true → decodeRequest p (encodeRequest i) = .ok i

theorem encodeWrite (cmd : Bytes) : Statement (.encodeWrite cmd) := by
  intro p h
  simp only [Instr.wf] at h
  simp [decodeRequest, encodeRequest, h]

end Sys2Proof.Laws.RequestRoundTrip
end

