-- ==== Sys2Proof/Laws/Step.lean ====
section
/-! SUPPORT. What a step can do. -/

namespace Sys2Proof.Machine

/-- A turn of the block: nothing pending, a response to the pending request, or its refusal. -/
theorem serve_cases (s : State) :
    (s.reqCmd = none ∧ serve s = .next s) ∨
    (∃ cmd, s.reqCmd = some cmd ∧ s.params.admits cmd.length = true ∧
      serve s = .next (writeResponse (responseOf (encodeWrite s.params cmd)) (takeRequest s))) ∨
    (∃ cmd, s.reqCmd = some cmd ∧ s.params.admits cmd.length = false ∧
      serve s = .next (refuseRequest (takeRequest s))) := by
  unfold serve
  cases hr : s.reqCmd with
  | none => exact .inl ⟨rfl, rfl⟩
  | some cmd =>
    refine .inr ?_
    rcases exec_cases cmd (takeRequest s) with ⟨ha, he⟩ | ⟨ha, -⟩ <;> simp only [takeRequest_params] at ha
    · exact .inl ⟨cmd, rfl, ha, by simp [decodeRequest, ha, he]⟩
    · exact .inr ⟨cmd, rfl, ha, by simp [decodeRequest, ha]⟩

/-- Everything a step can do, with the guard of each case. -/
theorem step_cases (s : State) :
    (s.schedule = [] ∧ step s = serve s) ∨
    (∃ rest, s.schedule = .block :: rest ∧ step s = serve { s with schedule := rest }) ∨
    (∃ cmd rest, s.schedule = .host (.issue cmd) :: rest ∧
      ((∃ c, s.reqCmd = some c) ∧ step s = serve s ∨
        s.reqCmd = none ∧ step s = .next (issueRequest cmd { s with schedule := rest }))) ∨
    (∃ rest, s.schedule = .host .readValid :: rest ∧
      step s = .next (recordRead (.valid s.rspValid) { s with schedule := rest })) ∨
    (∃ rest, s.schedule = .host .readStatus :: rest ∧
      ((∃ c, s.rspStatus = some c ∧ step s = .next (recordRead (.status c) { s with schedule := rest })) ∨
        s.rspStatus = none ∧ step s = .fault .statusHoldsNoValue)) ∨
    (∃ rest, s.schedule = .host .readFrame :: rest ∧
      ((∃ F, s.rspFrame = some F ∧ step s = .next (recordRead (.frame F) { s with schedule := rest })) ∨
        s.rspFrame = none ∧ step s = .fault .frameHoldsNoValue)) ∨
    (∃ rest, s.schedule = .host .reset :: rest ∧ step s = .next (resetBlock { s with schedule := rest })) := by
  unfold step takeTurn
  rcases hs : s.schedule with _ | ⟨t, rest⟩
  · exact .inl ⟨rfl, rfl⟩
  rcases t with _ | a
  · exact .inr (.inl ⟨rest, rfl, rfl⟩)
  rcases a with cmd | _ | _ | _ | _
  · refine .inr (.inr (.inl ⟨cmd, rest, rfl, ?_⟩))
    cases hr : s.reqCmd with
    | none => exact .inr ⟨rfl, by simp [hostTurn, hostIssue, hr]⟩
    | some c => exact .inl ⟨⟨c, rfl⟩, by simp [hostTurn, hostIssue, hr]⟩
  · exact .inr (.inr (.inr (.inl ⟨rest, rfl, rfl⟩)))
  · refine .inr (.inr (.inr (.inr (.inl ⟨rest, rfl, ?_⟩))))
    cases hr : s.rspStatus with
    | none => exact .inr ⟨rfl, by simp [hostTurn, readStatus, hr]⟩
    | some c => exact .inl ⟨c, rfl, by simp [hostTurn, readStatus, hr]⟩
  · refine .inr (.inr (.inr (.inr (.inr (.inl ⟨rest, rfl, ?_⟩)))))
    cases hr : s.rspFrame with
    | none => exact .inr ⟨rfl, by simp [hostTurn, readFrame, hr]⟩
    | some F => exact .inl ⟨F, rfl, by simp [hostTurn, readFrame, hr]⟩
  · exact .inr (.inr (.inr (.inr (.inr (.inr ⟨rest, rfl, rfl⟩)))))

end Sys2Proof.Machine
end

