-- ==== Sys2Proof/Laws/Tokenise.lean ====
section
/-! SUPPORT. What tokenising does on a gap and on a token (rules R25, R40, R55). -/

namespace Sys2Proof.Machine

variable {ws : List Byte}

/-- Reading every byte once, in order, gives the command (R25). -/
theorem readCommand_eq (cmd : Bytes) : readCommand cmd = cmd := by
  unfold readCommand memReadCmd
  apply List.ext_getElem?
  intro i
  induction cmd using List.reverseRecOn with
  | nil => simp
  | append_singleton xs x ih =>
    have hpre : (List.range xs.length).filterMap (fun a => (xs ++ [x])[a]?)
        = (List.range xs.length).filterMap (fun a => xs[a]?) := by
      apply List.filterMap_congr
      intro a ha
      rw [List.getElem?_append_left (List.mem_range.mp ha)]
    have hall : (List.range xs.length).filterMap (fun a => xs[a]?) = xs := by
      rw [List.filterMap_congr (g := fun a => some (xs.getD a 0))
        (by intro a ha; simp [List.getD, List.getElem?_eq_getElem (List.mem_range.mp ha)])]
      rw [List.filterMap_eq_map']
      refine List.ext_getElem (by simp) fun i h₁ h₂ => ?_
      simp [List.getD, List.getElem?_eq_getElem h₂]
    simp [List.range_succ, hpre, hall]

/-- A token is read whole into the open token. -/
theorem foldl_tokeniseByte_token (tok : Bytes) (h : ∀ b ∈ tok, b ∉ ws) (acc : List Bytes × Bytes) :
    tok.foldl (tokeniseByte ws) acc = (acc.1, acc.2 ++ tok) := by
  induction tok generalizing acc with
  | nil => simp
  | cons b tok ih =>
    have hb : b ∉ ws := h b (by simp)
    rw [List.foldl_cons, ih (fun c hc => h c (by simp [hc]))]
    simp [tokeniseByte, hb]

/-- A gap closes the open token; an empty gap does nothing. -/
theorem foldl_tokeniseByte_gap (gap : Bytes) (h : ∀ b ∈ gap, b ∈ ws) (acc : List Bytes × Bytes) :
    gap.foldl (tokeniseByte ws) acc = if gap = [] then acc else (closeToken acc, []) := by
  induction gap generalizing acc with
  | nil => simp
  | cons b gap ih =>
    have hb : b ∈ ws := h b (by simp)
    obtain ⟨toks, cur⟩ := acc
    rw [List.foldl_cons, ih (fun c hc => h c (by simp [hc]))]
    cases cur <;> simp [tokeniseByte, closeToken, hb]

/-- Tokens already closed stay in front. -/
theorem foldl_tokeniseByte_closed (cmd : Bytes) (toks : List Bytes) (cur : Bytes) :
    cmd.foldl (tokeniseByte ws) (toks, cur)
      = (toks ++ (cmd.foldl (tokeniseByte ws) ([], cur)).1, (cmd.foldl (tokeniseByte ws) ([], cur)).2) := by
  induction cmd generalizing toks cur with
  | nil => simp
  | cons b cmd ih =>
    simp only [List.foldl_cons]
    by_cases hb : b ∈ ws
    · cases cur with
      | nil => simpa [tokeniseByte, hb] using ih toks []
      | cons c cs =>
        simp only [tokeniseByte, List.contains_eq_mem, hb, decide_true, if_true, List.isEmpty_cons, Bool.false_eq_true, if_false,
          List.nil_append]
        rw [ih (toks ++ [c :: cs]) [], ih [c :: cs] []]
        simp
    · simp only [tokeniseByte, List.contains_eq_mem, hb, decide_false, if_false, Bool.false_eq_true]
      exact ih toks (cur ++ [b])

/-- What remains after the first token of a line is tokenised by itself. -/
theorem closeToken_foldl_closed (cmd : Bytes) (toks : List Bytes) :
    closeToken (cmd.foldl (tokeniseByte ws) (toks, [])) = toks ++ tokenise ws cmd := by
  rw [foldl_tokeniseByte_closed, tokenise, readCommand_eq]
  unfold closeToken
  dsimp only
  split <;> simp

end Sys2Proof.Machine
end

