-- ==== Sys2Proof/Tests/Slice0.lean ====
section
/-! SUPPORT. The model's own tests. Expected values are those of spec/95_test_vectors.md or of the rule named.
The `witness_` theorems show, for each obligation with hypotheses, a state and operands that meet all of them. -/

open Sys2Proof Sys2Proof.Machine Sys2Proof.Spec

namespace Sys2Proof.Tests

/-! ### Lines and states -/

/-- `write 1 2 3`. -/
def okLine : Bytes := writeKeyword ++ [0x31#8, 0x20#8, 0x32#8, 0x20#8, 0x33#8]
/-- `write 1 2` (S5). -/
def shortLine : Bytes := writeKeyword ++ [0x31#8, 0x20#8, 0x32#8]
/-- `write 300 2 5` (S6). -/
def badFieldLine : Bytes := writeKeyword ++ [0x33#8, 0x30#8, 0x30#8, 0x20#8, 0x32#8, 0x20#8, 0x35#8]
/-- `write 1 2 72057594037927936` (V20). -/
def tooLargeLine : Bytes := writeKeyword ++ [0x31#8, 0x20#8, 0x32#8, 0x20#8, 0x37#8, 0x32#8, 0x30#8, 0x35#8, 0x37#8, 0x35#8,
  0x39#8, 0x34#8, 0x30#8, 0x33#8, 0x37#8, 0x39#8, 0x32#8, 0x37#8, 0x39#8, 0x33#8, 0x36#8]
/-- `writeX 18 52 9927935178558959` (program 3, step 3). -/
def fullLine : Bytes := [0x77#8, 0x72#8, 0x69#8, 0x74#8, 0x65#8, 0x58#8, 0x20#8, 0x31#8, 0x38#8, 0x20#8, 0x35#8, 0x32#8, 0x20#8,
  0x39#8, 0x39#8, 0x32#8, 0x37#8, 0x39#8, 0x33#8, 0x35#8, 0x31#8, 0x37#8, 0x38#8, 0x35#8, 0x35#8, 0x38#8, 0x39#8, 0x35#8, 0x39#8]
/-- The frame of `write 1 2 3` (T7). -/
def okFrame : Bytes := [0x07#8, 0x01#8, 0x02#8, 0x01#8, 0x03#8, 0, 0, 0, 0, 0, 0]

/-- A state of a run under these turns. -/
def withTurns (turns : List Turn) : State := { State.reset with schedule := turns }
/-- A state with a request pending, under these turns. -/
def pending (cmd : Bytes) (turns : List Turn) : State := { State.reset with reqCmd := some cmd, schedule := turns }
/-- A state whose bound is this many command bytes (E5, E6). -/
def bounded (n : Nat) (turns : List Turn) : State :=
  { State.reset with params := { Params.default with maxCmdBytes := some n }, schedule := turns }
/-- A state that holds the response to `write 1 2 3`, under these turns. -/
def answered (turns : List Turn) : State := { afterResponse State.reset 0 (some okFrame) with schedule := turns }

/-- The next state, where there is one. -/
def nextOf : Result → Option State
  | .next t => some t
  | _ => none

/-! ### Well-formedness refuses an ill-formed term, check by check -/

/-- An 11-byte line under a bound of 8 (E5, R87). -/
theorem test_wf_refuses_overlong_line : Instr.wf { Params.default with maxCmdBytes := some 8 } (.encodeWrite okLine) = false := by decide
/-- The bound itself is allowed (E6). -/
theorem test_wf_accepts_line_at_bound : Instr.wf { Params.default with maxCmdBytes := some 11 } (.encodeWrite okLine) = true := by decide
/-- 2^56 needs eight bytes (R70). -/
theorem test_wf_refuses_large_value : WriteFields.wf ⟨1, 2, 72057594037927936⟩ = false := by decide
theorem test_frameWf_refuses_short_frame : frameWf (okFrame.take 10) = false := by decide
theorem test_frameWf_refuses_function_code : frameWf [0x06#8, 1, 2, 1, 3, 0, 0, 0, 0, 0, 0] = false := by decide
theorem test_frameWf_refuses_length_eight : frameWf [0x07#8, 1, 2, 8, 1, 1, 1, 1, 1, 1, 1] = false := by decide
theorem test_frameWf_refuses_nonzero_padding : frameWf [0x07#8, 1, 2, 1, 3, 0, 0, 0, 0, 0, 1] = false := by decide
theorem test_frameWf_refuses_leading_zero : frameWf [0x07#8, 1, 2, 2, 0, 3, 0, 0, 0, 0, 0] = false := by decide
/-- The WF check of spec/95_test_vectors.md on V4. -/
theorem test_frameWf_accepts_256 : frameWf [0x07#8, 1, 2, 2, 1, 0, 0, 0, 0, 0, 0] = true := by decide

/-! ### Decoding -/

/-- The row's word of S1, from R48's bits: 07, node 01, index 02, L 02, payload 02 37. -/
theorem test_decode_table_word : decodeTableWord 88 0x0701020202370000000000
    = some (.encodeWrite (writeKeyword ++ [0x31#8, 0x20#8, 0x32#8, 0x20#8, 0x35#8, 0x36#8, 0x37#8])) := by decide
/-- V17's frame decodes to 9927935178558959 (the round-trip check of spec/95_test_vectors.md). -/
theorem test_decode_full_payload : decodeFrame [0x07#8, 0x12, 0x34, 7, 0x23, 0x45, 0x67, 0x89, 0xAB, 0xCD, 0xEF]
    = .ok ⟨0x12, 0x34, 9927935178558959⟩ := by decide
theorem test_decode_rejects_padding : decodeFrame [0x07#8, 1, 2, 1, 3, 0, 0, 0, 0, 0, 1] = .error .paddingNotZero := by decide
theorem test_decode_rejects_nonminimal : decodeFrame [0x07#8, 1, 2, 2, 0, 3, 0, 0, 0, 0, 0] = .error .payloadNotMinimal := by decide
/-- V14: interior zeros kept (C2). -/
theorem test_encode_interior_zeros : encodeFrame ⟨1, 2, 280379743338240⟩
    = [0x07#8, 1, 2, 6, 0xFF, 0, 0xFF, 0, 0xFF, 0, 0] := by decide
theorem test_request_rejected_overlong :
    decodeRequest { Params.default with maxCmdBytes := some 8 } okLine = .error .overLong := by decide

/-! ### The parts of the operation -/

/-- R55's example: `"  write\t1 2\n3\r\n"`. -/
theorem test_tokenise_mixed_whitespace : tokenise Params.defaultWsSet
    ([0x20#8, 0x20#8, 0x77#8, 0x72#8, 0x69#8, 0x74#8, 0x65#8, 0x09#8, 0x31#8, 0x20#8, 0x32#8, 0x0A#8, 0x33#8, 0x0D#8, 0x0A#8])
    = [[0x77#8, 0x72#8, 0x69#8, 0x74#8, 0x65#8], [0x31#8], [0x32#8], [0x33#8]] := by decide
/-- U+00A0 and NUL are token bytes (T27, T28). -/
theorem test_tokenise_other_bytes : tokenise Params.defaultWsSet [0x35#8, 0x00#8, 0xC2#8, 0xA0#8]
    = [[0x35#8, 0x00#8, 0xC2#8, 0xA0#8]] := by decide
/-- R58: 255 and 256 at width 8. -/
theorem test_parse_width_bound :
    parseU true 8 [0x32#8, 0x35#8, 0x35#8] = some 255 ∧ parseU true 8 [0x32#8, 0x35#8, 0x36#8] = none := by decide
/-- R58: `+5` by the parameter, a lone `+`, `-0`. -/
theorem test_parse_signs : parseU true 8 [0x2B#8, 0x35#8] = some 5 ∧ parseU false 8 [0x2B#8, 0x35#8] = none ∧
    parseU true 8 [0x2B#8] = none ∧ parseU true 8 [0x2D#8, 0x30#8] = none := by decide
/-- R65: 256 gives `01 00`, and 0 gives nothing. -/
theorem test_significant_bytes : significantBytes 256 = [1, 0] ∧ significantBytes 0 = [] := by decide

/-! ### The instruction -/

/-- Program 3, step 3: a keyword variant and a full payload. -/
theorem test_exec_full_payload : (nextOf (exec (.encodeWrite fullLine) State.reset)).bind (·.rspFrame)
    = some [0x07#8, 0x12, 0x34, 7, 0x23, 0x45, 0x67, 0x89, 0xAB, 0xCD, 0xEF] := by decide
/-- E4: after a frame, an error leaves status 1 and no frame. -/
theorem test_exec_error_clears_frame : (nextOf (exec (.encodeWrite shortLine) (answered []))).map (fun t => (t.rspStatus, t.rspFrame))
    = some (some 1, none) := by decide

/-! ### The host's actions -/

/-- E2: after reset RSP_VALID reads 0. -/
theorem test_read_valid_after_reset : (nextOf (step (withTurns [.host .readValid]))).map (·.reads) = some [.valid 0] := by decide
/-- E5: an over-long request leaves the port free and sets the mark. -/
theorem test_issue_overlong : (nextOf (step (bounded 8 [.host (.issue okLine)]))).map (fun t => (t.reqCmd, t.refusalMark))
    = some (none, true) := by decide

/-! ### Witnesses: hypotheses that can be met -/

theorem fieldsParse_okLine : FieldsParse Params.default okLine ⟨1, 2, 3⟩ :=
  ⟨[0x77#8, 0x72#8, 0x69#8, 0x74#8, 0x65#8], [0x31#8], [0x32#8], [0x33#8], by decide, by decide, by decide, by decide⟩
theorem fieldsParse_tooLargeLine : FieldsParse Params.default tooLargeLine ⟨1, 2, 72057594037927936⟩ :=
  ⟨[0x77#8, 0x72#8, 0x69#8, 0x74#8, 0x65#8], [0x31#8], [0x32#8], tooLargeLine.drop 10, by decide, by decide, by decide, by decide⟩

/-- A reset may come while a request is pending. -/
theorem witness_ResetAction : (pending okLine [.host .reset]).schedule = .host .reset :: [] := by decide
theorem witness_ValidRead : (withTurns [.host .readValid]).schedule = .host .readValid :: [] := by decide
/-- Both clauses: a held status, and ⊥ (E1). -/
theorem witness_StatusRead : ((answered [.host .readStatus]).schedule = .host .readStatus :: [] ∧
      (answered [.host .readStatus]).rspStatus = some 0) ∧
    (withTurns [.host .readStatus]).schedule = .host .readStatus :: [] ∧ (withTurns [.host .readStatus]).rspStatus = none := by decide
/-- Both clauses: a held frame, and ⊥ (E3). -/
theorem witness_FrameRead : ((answered [.host .readFrame]).schedule = .host .readFrame :: [] ∧
      (answered [.host .readFrame]).rspFrame = some okFrame) ∧
    (withTurns [.host .readFrame]).schedule = .host .readFrame :: [] ∧ (withTurns [.host .readFrame]).rspFrame = none := by decide

/-- A state that satisfies the invariant and holds a response. -/
theorem answered_inv (turns : List Turn) : (answered turns).Inv := by
  refine ⟨by simp [answered, afterResponse], by simp [answered, afterResponse, okCode], ?_, ?_, ?_, by simp [answered, afterResponse, State.reset]⟩
  · intro F h
    cases h
    decide
  · intro c h
    cases h
    simp [answered, afterResponse, State.reset]
  · intro r h
    simp only [answered, afterResponse, State.reset, List.nil_append, List.mem_singleton] at h
    subst h
    refine ⟨by simp [okCode], ?_⟩
    intro F h
    cases h
    decide

/-- Both clauses of ReadsSucceedWhereAResponseIsHeld. -/
theorem witness_ReadsSucceed : (answered [.host .readStatus]).Inv ∧
    (answered [.host .readStatus]).schedule = .host .readStatus :: [] ∧ (answered [.host .readStatus]).rspValid = 1 ∧
    (answered [.host .readFrame]).Inv ∧ (answered [.host .readFrame]).schedule = .host .readFrame :: [] ∧
    (answered [.host .readFrame]).rspStatus = some 0 :=
  ⟨answered_inv _, by decide, by decide, answered_inv _, by decide, by decide⟩
/-- Both sides of the two equivalences of StepStopsExactlyOnReadsOfNoValue are met. -/
theorem witness_StepStops : step (withTurns [.host .readStatus]) = .fault .statusHoldsNoValue ∧
    step (withTurns [.host .readFrame]) = .fault .frameHoldsNoValue := ⟨rfl, rfl⟩

theorem witness_StepRunsTheDecodedRequest : (pending okLine [.block]).schedule = .block :: [] ∧
    (pending okLine []).schedule = [] ∧ (pending okLine []).reqCmd = some okLine ∧
    decodeRequest (pending okLine []).params okLine = .ok (.encodeWrite okLine) := by decide
theorem witness_PlacedTableWord : decodeTableWord 88 0x0701020103000000000000 = some (.encodeWrite okLine) ∧
    Instr.wf State.reset.params (.encodeWrite okLine) = true := by decide
theorem witness_IdleBlockTurn : (withTurns [.block]).schedule = .block :: [] ∧ (withTurns []).schedule = [] ∧
    (withTurns [.block]).reqCmd = none := by decide
/-- The three clauses: no bound, the bound itself (E6), and one byte more than the bound. -/
theorem witness_Issue : ((withTurns [.host (.issue okLine)]).schedule = .host (.issue okLine) :: [] ∧
      (withTurns [.host (.issue okLine)]).reqCmd = none ∧ (withTurns [.host (.issue okLine)]).params.maxCmdBytes = none) ∧
    ((bounded 11 [.host (.issue okLine)]).schedule = .host (.issue okLine) :: [] ∧
      (bounded 11 [.host (.issue okLine)]).reqCmd = none ∧
      (bounded 11 [.host (.issue okLine)]).params.maxCmdBytes = some 11 ∧ okLine.length ≤ 11) ∧
    (bounded 10 [.host (.issue okLine)]).schedule = .host (.issue okLine) :: [] ∧
      (bounded 10 [.host (.issue okLine)]).reqCmd = none ∧
      (bounded 10 [.host (.issue okLine)]).params.maxCmdBytes = some 10 ∧ 10 < okLine.length := by decide
theorem witness_IssueWaits : (pending okLine [.host (.issue shortLine)]).schedule = .host (.issue shortLine) :: [] ∧
    (pending okLine [.host (.issue shortLine)]).reqCmd = some okLine := by decide

/-- MalformedCommand: the hypothesis, and both sides of the equivalence. -/
theorem witness_MalformedCommand : State.reset.params.admits shortLine.length = true ∧
    (tokenise State.reset.params.wsSet shortLine).length ≠ 4 ∧ (tokenise State.reset.params.wsSet okLine).length = 4 := by decide
theorem witness_InvalidField : State.reset.params.admits badFieldLine.length = true ∧
    tokenise State.reset.params.wsSet badFieldLine
      = [[0x77#8, 0x72#8, 0x69#8, 0x74#8, 0x65#8], [0x33#8, 0x30#8, 0x30#8], [0x32#8], [0x35#8]] ∧
    parseU State.reset.params.plusSignOk 8 [0x33#8, 0x30#8, 0x30#8] = none := by decide
theorem witness_PayloadTooLarge : State.reset.params.admits tooLargeLine.length = true ∧
    FieldsParse State.reset.params tooLargeLine ⟨1, 2, 72057594037927936⟩ ∧ 2 ^ 56 ≤ (72057594037927936#64).toNat :=
  ⟨by decide, fieldsParse_tooLargeLine, by decide⟩
/-- AcceptedCommandGivesTheGuaranteedFrame and AcceptedCommandGivesTheTableRow. -/
theorem witness_AcceptedCommand : State.reset.params.admits okLine.length = true ∧
    FieldsParse State.reset.params okLine ⟨1, 2, 3⟩ ∧ (3#64).toNat < 2 ^ 56 ∧ WriteFields.wf ⟨1, 2, 3⟩ = true :=
  ⟨by decide, fieldsParse_okLine, by decide, by decide⟩
/-- EveryAdmittedRequestCompletesInPrecedence: a line for each clause. -/
theorem witness_EveryAdmittedRequestCompletes : State.reset.params.admits shortLine.length = true ∧
    (tokenise State.reset.params.wsSet shortLine).length ≠ 4 ∧ (tokenise State.reset.params.wsSet badFieldLine).length = 4 ∧
    (¬ ∃ f, FieldsParse State.reset.params badFieldLine f) ∧ FieldsParse State.reset.params okLine ⟨1, 2, 3⟩ ∧
    FieldsParse State.reset.params tooLargeLine ⟨1, 2, 72057594037927936⟩ := by
  refine ⟨by decide, by decide, by decide, ?_, fieldsParse_okLine, fieldsParse_tooLargeLine⟩
  rintro ⟨f, t0, t1, t2, t3, ht, h1, -⟩
  have hb : tokenise State.reset.params.wsSet badFieldLine
      = [[0x77#8, 0x72#8, 0x69#8, 0x74#8, 0x65#8], [0x33#8, 0x30#8, 0x30#8], [0x32#8], [0x35#8]] := by decide
  have hn : parseU State.reset.params.plusSignOk 8 [0x33#8, 0x30#8, 0x30#8] = none := by decide
  rw [hb] at ht
  simp only [List.cons.injEq] at ht
  rw [← ht.2.1, hn] at h1
  cases h1
/-- The clauses of OverlongRequestIsRefused: one byte more than the bound, the bound itself (E6), and no bound. -/
theorem witness_OverlongRequest : ((bounded 10 []).params.maxCmdBytes = some 10 ∧ 10 < okLine.length) ∧
    ((bounded 11 []).params.maxCmdBytes = some 11 ∧ okLine.length ≤ 11) ∧ State.reset.params.maxCmdBytes = none := by decide
/-- Both clauses of EncodeWriteLeavesTheRestUnchanged. -/
theorem witness_EncodeWriteFrame : (∃ t, exec (.encodeWrite okLine) State.reset = .next t) ∧
    State.reset.params.admits okLine.length = true ∧
    (∃ t, exec (.encodeWrite okLine) (bounded 8 []) = .next t) ∧ (bounded 8 []).params.admits okLine.length = false :=
  ⟨⟨_, rfl⟩, by decide, ⟨_, rfl⟩, by decide⟩
/-- Two states that differ in every response register. -/
theorem witness_ResultDependsOnly : State.reset.params = (answered []).params ∧
    State.reset.params.admits okLine.length = true ∧ State.reset.rspFrame ≠ (answered []).rspFrame := by decide
/-- `write 1 2 3` and `1 1 2 3` differ in token 0 alone. -/
theorem witness_KeywordIsNotExamined :
    tokenise State.reset.params.wsSet okLine = [0x77#8, 0x72#8, 0x69#8, 0x74#8, 0x65#8] :: [[0x31#8], [0x32#8], [0x33#8]] ∧
    tokenise State.reset.params.wsSet (0x31#8 :: okLine.drop 5) = [0x31#8] :: [[0x31#8], [0x32#8], [0x33#8]] ∧
    State.reset.params.admits okLine.length = true ∧ State.reset.params.admits (0x31#8 :: okLine.drop 5).length = true := by decide
theorem exec_okLine_reset : exec (.encodeWrite okLine) State.reset = .next (afterResponse State.reset 0 (some okFrame)) := by
  have h : encodeWrite State.reset.params okLine = .ok okFrame := by decide
  have ha : State.reset.params.admits okLine.length = true := by decide
  simp only [exec, execEncodeWrite, ha, h, if_true]
  rfl
/-- Two spellings of one command. -/
theorem witness_EqualFrames : exec (.encodeWrite okLine) State.reset = .next (afterResponse State.reset 0 (some okFrame)) ∧
    FieldsParse State.reset.params okLine ⟨1, 2, 3⟩ := ⟨exec_okLine_reset, fieldsParse_okLine⟩
theorem witness_OuterWhitespace : ∀ b ∈ ([0x0D#8, 0x0A#8] : Bytes), b ∈ Params.defaultWsSet := by decide
/-- `+7` and `007` at width 8. -/
theorem witness_EqualValues : IsNumeral true [0x2B#8, 0x37#8] [0x37#8] ∧ IsNumeral true [0x30#8, 0x30#8, 0x37#8] [0x30#8, 0x30#8, 0x37#8] ∧
    parseU true 8 [0x2B#8, 0x37#8] = some 7 ∧ parseU true 8 [0x30#8, 0x30#8, 0x37#8] = some 7 :=
  ⟨⟨by decide, by decide, .inr ⟨rfl, rfl⟩⟩, ⟨by decide, by decide, .inl rfl⟩, by decide, by decide⟩
/-- SlotsHoldSignificantBytesThenZeros and ProducedWordMatchesTheTableMask: a meaningful and an unused slot. -/
theorem witness_ProducedFrame : State.reset.params.admits okLine.length = true ∧ FieldsParse State.reset.params okLine ⟨1, 2, 3⟩ ∧
    exec (.encodeWrite okLine) State.reset = .next (afterResponse State.reset 0 (some okFrame)) ∧
    (afterResponse State.reset 0 (some okFrame)).rspFrame = some okFrame ∧ 0 < (byteAt okFrame 3).toNat ∧ (byteAt okFrame 3).toNat < 6 :=
  ⟨by decide, fieldsParse_okLine, exec_okLine_reset, rfl, by decide, by decide⟩
/-- The greatest value of every field is well-formed. -/
theorem witness_DecodeOfEncodedFrame : WriteFields.wf ⟨255, 255, 72057594037927935⟩ = true := by decide
theorem witness_EncodeOfDecodedFrame : decodeFrame okFrame = .ok ⟨1, 2, 3⟩ := by decide
/-- A byte string for each named rejection of DecoderAcceptsExactlyWellFormedFrames, and a well-formed frame. -/
theorem witness_Decoder_header : (okFrame.take 10).length ≠ 11 ∧
    ([0x06#8, 1, 2, 1, 3, 0, 0, 0, 0, 0, 0] : Bytes).length = 11 ∧ byteAt [0x06#8, 1, 2, 1, 3, 0, 0, 0, 0, 0, 0] 0 ≠ 0x07#8 ∧
    ([0x07#8, 1, 2, 8, 1, 1, 1, 1, 1, 1, 1] : Bytes).length = 11 ∧ byteAt [0x07#8, 1, 2, 8, 1, 1, 1, 1, 1, 1, 1] 0 = 0x07#8 ∧
    7 < (byteAt [0x07#8, 1, 2, 8, 1, 1, 1, 1, 1, 1, 1] 3).toNat := by decide
/-- The last slot nonzero with L = 1, and L = 2 with a first slot of zero. -/
theorem witness_Decoder_payload : ([0x07#8, 1, 2, 1, 3, 0, 0, 0, 0, 0, 1] : Bytes).length = 11 ∧
    byteAt [0x07#8, 1, 2, 1, 3, 0, 0, 0, 0, 0, 1] 0 = 0x07#8 ∧ ([0x07#8, 1, 2, 2, 0, 3, 0, 0, 0, 0, 0] : Bytes).length = 11 ∧
    byteAt [0x07#8, 1, 2, 2, 0, 3, 0, 0, 0, 0, 0] 0 = 0x07#8 ∧ (byteAt [0x07#8, 1, 2, 2, 0, 3, 0, 0, 0, 0, 0] 3).toNat ≤ 7 ∧
    (byteAt [0x07#8, 1, 2, 1, 3, 0, 0, 0, 0, 0, 1] 3).toNat ≤ 6 ∧
    byteAt [0x07#8, 1, 2, 1, 3, 0, 0, 0, 0, 0, 1] (4 + 6) ≠ 0x00#8 ∧
    (∀ k, k < 7 → (byteAt [0x07#8, 1, 2, 2, 0, 3, 0, 0, 0, 0, 0] 3).toNat ≤ k →
      byteAt [0x07#8, 1, 2, 2, 0, 3, 0, 0, 0, 0, 0] (4 + k) = 0x00#8) ∧
    0 < (byteAt [0x07#8, 1, 2, 2, 0, 3, 0, 0, 0, 0, 0] 3).toNat ∧
    byteAt [0x07#8, 1, 2, 2, 0, 3, 0, 0, 0, 0, 0] 4 = 0x00#8 := by decide
/-- Both views of WordAndBytesAreTwoViewsOfTheFrame, at the last offset. -/
theorem witness_WordAndBytes : okFrame.length = 11 ∧ byteAt okFrame 10 = 0 := by decide
/-- CanonicalCommandLine, ProducibleFrames, EveryTableWord. -/
theorem witness_DefaultParameters : State.reset.params = Params.default ∧ State.reset.params.wsSet = Params.defaultWsSet ∧
    frameWf (wordFrame 0x0701020103000000000000#88) = true := by decide

/-- StepKeepsInvariant, StepKeepsParameters, ResponseRegistersChangeAsOneUnit: a state with a response, and its step to the next. -/
theorem witness_StepKeeps : (answered [.host (.issue shortLine)]).Inv ∧
    ∃ t, step (answered [.host (.issue shortLine)]) = .next t ∧ t.reqCmd = some shortLine :=
  ⟨answered_inv _, _, rfl, by decide⟩
/-- The second and third clauses of ResponseRegistersChangeAsOneUnit: a reset, and a response. -/
theorem witness_RegistersChange : (∃ t, step (answered [.host .reset]) = .next t ∧ t.rspValid = 0) ∧
    ∃ t, step (pending okLine []) = .next t ∧ t.rspStatus = some 0 := ⟨⟨_, rfl, by decide⟩, _, rfl, by decide⟩
theorem witness_RefusalMarkStays : ∃ t, step { answered [.host .reset] with refusalMark := true } = .next t := ⟨_, rfl⟩
theorem witness_OnlyResetClearsValid : ∃ t, step (answered [.host .reset]) = .next t ∧ (answered [.host .reset]).rspValid = 1 ∧
    t.rspValid ≠ 1 := ⟨_, rfl, by decide, by decide⟩
theorem witness_RunAnswers : (withTurns (requestTurns [okLine, shortLine])).reqCmd = none ∧
    (withTurns (requestTurns [okLine, shortLine])).schedule = requestTurns [okLine, shortLine] := by decide
theorem witness_OrderOfCallers : State.reset.reqCmd = none ∧ State.reset.params.admits okLine.length = true ∧
    State.reset.params.admits shortLine.length = true := by decide

end Sys2Proof.Tests
end

section
/-! PROOFS. The produced frame, slot by slot (rules R47, R67). -/

open Sys2Proof.Spec

namespace Sys2Proof.Machine

/-! ### From the request to the frame -/

/-- Fields that parse are what the first half of the operation finds. -/
theorem parseCommand_of_fieldsParse {p : Params} {cmd : Bytes} {f : WriteFields} (h : FieldsParse p cmd f) :
    parseCommand p cmd = .ok f := by
  obtain ⟨t0, t1, t2, t3, ht, h1, h2, h3⟩ := h
  simp only [parseCommand, ht, checkCount, checkFields, h1, h2, h3]

/-- A frame held after an admitted request is the assembled one, and its significant bytes fit the payload. -/
theorem frame_eq_assemble_of_exec {s t : State} {cmd F : Bytes} {f : WriteFields}
    (ha : s.params.admits cmd.length = true) (hf : FieldsParse s.params cmd f)
    (he : exec (.encodeWrite cmd) s = .next t) (hF : t.rspFrame = some F) :
    (significantBytes f.paramValue).length ≤ 7 ∧ F = assemble f (significantBytes f.paramValue) := by
  have henc : encodeWrite s.params cmd = frameOf f :=
    (encodeWrite_of_parse s.params cmd).2 f (parseCommand_of_fieldsParse hf)
  have hresp : (responseOf (frameOf f)).frame = some F := by
    rcases exec_cases cmd s with ⟨-, hx⟩ | ⟨hna, -⟩
    · obtain rfl : writeResponse (responseOf (encodeWrite s.params cmd)) s = t := by simpa [hx] using he
      rwa [writeResponse_rspFrame, henc] at hF
    · simp [ha] at hna
  rcases frameOf_cases f with ⟨hle, hok⟩ | ⟨-, herr⟩
  · exact ⟨hle, by simpa [hok, responseOf] using hresp.symm⟩
  · simp [herr, responseOf] at hresp

/-! ### The bytes of an assembled frame -/

/-- F[3] is the number of significant bytes, where it fits the payload. -/
theorem assemble_payloadLength (f : WriteFields) {sig : Bytes} (h : sig.length ≤ 7) :
    (byteAt (assemble f sig) 3).toNat = sig.length := by
  have hmod : sig.length % 256 = sig.length := Nat.mod_eq_of_lt (by omega)
  simpa [assemble_eq, byteAt] using hmod

/-- Payload slot k is significant byte k, and 0x00 where there is none (R47). -/
theorem assemble_slot (f : WriteFields) (sig : Bytes) (k : Nat) :
    byteAt (assemble f sig) (4 + k) = if k < sig.length then byteAt sig k else 0 := by
  have hpayload : byteAt (assemble f sig) (4 + k) = byteAt (sig ++ List.replicate (7 - sig.length) 0) k := by
    simp [assemble_eq, byteAt, Nat.add_comm 4 k]
  rw [hpayload]
  split
  case isTrue hk => exact List.getD_append _ _ _ _ hk
  case isFalse hk =>
    rw [byteAt, List.getD_append_right _ _ _ _ (Nat.le_of_not_lt hk), List.getD_eq_getElem?_getD, List.getElem?_replicate]
    split <;> rfl

/-- The first significant byte of a value is not zero: stripping stops there. -/
theorem significantBytes_first_ne_zero {v : BitVec 64} (h : 0 < (significantBytes v).length) :
    byteAt (significantBytes v) 0 ≠ 0 := by
  obtain ⟨i, -, hdrop, -, hne⟩ := stripLeadingZeros_spec (be8 v)
  rw [significantBytes, hdrop] at h ⊢
  have hi : i < (be8 v).length := by rw [List.length_drop] at h; omega
  simpa [byteAt] using hne hi

end Sys2Proof.Machine

namespace Sys2Proof.Proofs

open Sys2Proof.Machine

/-- Settles O34: F is the assembled frame of the significant bytes, whose slots and first byte are known. -/
theorem slotsHoldSignificantBytesThenZeros : Obligations.SlotsHoldSignificantBytesThenZeros := by
  intro s t cmd F f ha hf he hF k _
  obtain ⟨hle, rfl⟩ := frame_eq_assemble_of_exec ha hf he hF
  rw [assemble_payloadLength f hle]
  refine ⟨assemble_slot f _ k, fun hpos => ?_⟩
  have hslot := assemble_slot f (significantBytes f.paramValue) 0
  rw [if_pos hpos] at hslot
  rw [hslot]
  exact significantBytes_first_ne_zero hpos

end Sys2Proof.Proofs
end

section
/-! PROOFS. The unsigned parse against the grammar of a numeral (rules R41, R58). -/

namespace Sys2Proof.Machine

/-! ### Dropping the optional plus -/

@[simp] theorem dropPlus_plus_cons (ds : Bytes) : dropPlus true (0x2B#8 :: ds) = ds := by
  simp [dropPlus]

/-- A `+` is no digit, so a run of digits has none to drop. -/
theorem dropPlus_of_digits (plusOk : Bool) {ds : Bytes} (h : ∀ c ∈ ds, 0x30 ≤ c.toNat ∧ c.toNat ≤ 0x39) :
    dropPlus plusOk ds = ds := by
  cases ds with
  | nil => rfl
  | cons c cs =>
    have hne : c ≠ 0x2B#8 := by
      rintro rfl
      exact absurd (h _ List.mem_cons_self).1 (by decide)
    simp [dropPlus, hne]

/-- A token is what is left of it, with or without a `+` before it. -/
theorem spelled_dropPlus (plusOk : Bool) (tok : Bytes) :
    tok = dropPlus plusOk tok ∨ (plusOk = true ∧ tok = 0x2B#8 :: dropPlus plusOk tok) := by
  cases tok with
  | nil => exact .inl rfl
  | cons c cs =>
    by_cases h : plusOk = true ∧ c = 0x2B#8
    · obtain ⟨rfl, rfl⟩ := h
      exact .inr ⟨rfl, by simp⟩
    · exact .inl (by simp [dropPlus, h])

/-- The digits of a numeral are unique: what is left of the token after the optional `+` (R41). -/
theorem isNumeral_iff (plusOk : Bool) (tok ds : Bytes) :
    IsNumeral plusOk tok ds ↔
      ds = dropPlus plusOk tok ∧ ds ≠ [] ∧ ∀ c ∈ ds, 0x30 ≤ c.toNat ∧ c.toNat ≤ 0x39 := by
  constructor
  · rintro ⟨hne, hdigits, rfl | ⟨rfl, rfl⟩⟩
    · exact ⟨(dropPlus_of_digits plusOk hdigits).symm, hne, hdigits⟩
    · exact ⟨(dropPlus_plus_cons ds).symm, hne, hdigits⟩
  · rintro ⟨rfl, hne, hdigits⟩
    exact ⟨hne, hdigits, spelled_dropPlus plusOk tok⟩

end Sys2Proof.Machine

namespace Sys2Proof.Proofs

open Sys2Proof.Machine

/-- Settles O28: the only digits a token can have as a numeral are those that ParseU reads. -/
theorem parseGivesTheExactValueOfNumerals : Obligations.ParseGivesTheExactValueOfNumerals := by
  intro plusOk w tok v
  simp only [parseU_eq_some, isNumeral_iff, and_assoc, exists_eq_left]

end Sys2Proof.Proofs
end

section
/-! PROOFS. The bytes of a value and the significant ones among them (rules R6, R64, R65, R70). -/

namespace Sys2Proof

/-- A string whose first byte is not zero needs all its bytes: its value reaches the weight of the first. -/
theorem pow_le_valBE_cons {b : Byte} (hb : b ≠ 0) (s : Bytes) : 256 ^ s.length ≤ valBE (b :: s) := by
  have hpos : 0 < b.toNat := Nat.pos_of_ne_zero fun h => hb (BitVec.eq_of_toNat_eq h)
  rw [valBE_cons]
  exact (Nat.le_mul_of_pos_left _ hpos).trans (Nat.le_add_right _ _)

namespace Machine

/-! ### BE8 -/

/-- Byte k of BE8 is the value shifted down to its place (R64). -/
theorem byteAt_be8 (v : BitVec 64) {k : Nat} (hk : k < 8) :
    (byteAt (be8 v) k).toNat = v.toNat / 256 ^ (7 - k) % 256 := by
  have hget : byteAt (be8 v) k = ((v >>> (8 * (7 - k))) &&& 0xFF#64).setWidth 8 := by
    simp [byteAt, be8, hk]
  rw [hget, be8_byte]

/-- The first k bytes of BE8 hold the value less its low 8 - k bytes: each byte read adds the next digit. -/
theorem valBE_take_be8 (v : BitVec 64) {k : Nat} (hk : k ≤ 8) :
    valBE ((be8 v).take k) = v.toNat / 256 ^ (8 - k) := by
  induction k with
  | zero => exact (Nat.div_eq_of_lt (by simpa using v.isLt)).symm
  | succ k ih =>
    have hlt : k < (be8 v).length := by rw [be8_length]; omega
    have hbyte : ((be8 v)[k]).toNat = v.toNat / 256 ^ (7 - k) % 256 := by
      rw [← List.getD_eq_getElem _ 0 hlt]
      exact byteAt_be8 v (by omega)
    have hweight : v.toNat / 256 ^ (8 - k) = v.toNat / 256 ^ (7 - k) / 256 := by
      rw [show 8 - k = 7 - k + 1 by omega, Nat.pow_succ, Nat.div_div_eq_div_mul]
    rw [List.take_succ_eq_append_getElem hlt, valBE_append, ih (by omega), hweight, valBE_cons, hbyte]
    simpa [valBE_nil] using Nat.div_add_mod' _ 256

/-- BE8 keeps the value. -/
@[simp] theorem valBE_be8 (v : BitVec 64) : valBE (be8 v) = v.toNat := by
  simpa [List.take_of_length_le, be8_length] using valBE_take_be8 v le_rfl

/-! ### The significant bytes -/

/-- Stripping leading zeros keeps the value: what goes is worth 0 (R65). -/
@[simp] theorem valBE_stripLeadingZeros (be : Bytes) : valBE (stripLeadingZeros be) = valBE be := by
  obtain ⟨i, -, hdrop, hzeros, -⟩ := stripLeadingZeros_spec be
  conv_rhs => rw [← List.take_append_drop i be, valBE_append, hzeros, valBE_replicate_zero]
  simp [hdrop]

/-- The significant bytes hold the value (R65). -/
@[simp] theorem valBE_significantBytes (v : BitVec 64) : valBE (significantBytes v) = v.toNat := by
  rw [significantBytes, valBE_stripLeadingZeros, valBE_be8]

/-- The significant bytes are as few as can hold the value (R70). -/
theorem significantBytes_length_le_iff (v : BitVec 64) (k : Nat) :
    (significantBytes v).length ≤ k ↔ v.toNat < 256 ^ k := by
  rw [← valBE_significantBytes v]
  constructor
  · intro hle
    exact (valBE_lt _).trans_le (Nat.pow_le_pow_right (by norm_num) hle)
  · intro hlt
    have hfirst := significantBytes_first_ne_zero (v := v)
    cases hsig : significantBytes v with
    | nil => simp
    | cons b s =>
      rw [hsig] at hlt hfirst
      have hpow : 256 ^ s.length < 256 ^ k := (pow_le_valBE_cons (hfirst (by simp)) s).trans_lt hlt
      exact (Nat.pow_lt_pow_iff_right (by norm_num)).mp hpow

end Machine

end Sys2Proof

namespace Sys2Proof.Proofs

open Sys2Proof.Machine

/-- Settles O31: the bytes one by one, and the value by reading them from the first. -/
theorem bytesOfAValueAreItsBigEndianBytes : Obligations.BytesOfAValueAreItsBigEndianBytes := by
  intro v
  refine ⟨be8_length v, fun k hk => ?_, valBE_be8 v⟩
  rw [byteAt_be8 v hk, Nat.shiftRight_eq_div_pow, Nat.pow_mul]

/-- Settles O32: the index where stripping stops, and what the stripped bytes are worth. -/
theorem strippingRemovesOnlyTheLeadingZeros : Obligations.StrippingRemovesOnlyTheLeadingZeros := by
  intro v
  obtain ⟨i, hi, hdrop, hzeros, hstop⟩ := stripLeadingZeros_spec (be8 v)
  rw [be8_length] at hi hstop
  refine ⟨i, hi, hdrop, fun k hk => ?_, hstop, valBE_significantBytes v, fun hne => ?_, ?_⟩
  · have hbyte : (be8 v)[k]? = some 0 := by
      rw [← List.getElem?_take_of_lt hk, hzeros, List.getElem?_replicate, if_pos hk]
    rw [byteAt, List.getD_eq_getElem?_getD, hbyte, Option.getD_some]
  · exact significantBytes_first_ne_zero (List.length_pos_iff.mpr hne)
  · rintro rfl
    decide

end Sys2Proof.Proofs
end

section
/-! PROOFS. The frame of an accepted command, and what a result depends on (rules R51, R67, R69, R73). -/

open Sys2Proof.Spec

namespace Sys2Proof.Machine

/-! ### The assembled frame -/

/-- Up to seven significant bytes fill up to exactly 11 bytes. -/
theorem assemble_length (f : WriteFields) {sig : Bytes} (h : sig.length ≤ 7) : (assemble f sig).length = 11 := by
  simp only [assemble_eq, List.length_cons, List.length_append, List.length_replicate]
  omega

/-- The three header bytes before the payload length (R67). -/
theorem assemble_header (f : WriteFields) (sig : Bytes) :
    byteAt (assemble f sig) 0 = 0x07#8 ∧ byteAt (assemble f sig) 1 = f.nodeId ∧
      byteAt (assemble f sig) 2 = f.paramIndex := by
  simp [assemble_eq, byteAt]

/-- The significant bytes stand from offset 4 on. -/
theorem assemble_payload (f : WriteFields) (sig : Bytes) : ((assemble f sig).drop 4).take sig.length = sig := by
  simp [assemble_eq]

/-- Every slot after the significant bytes is 0x00 (R47). -/
theorem assemble_padding (f : WriteFields) {sig : Bytes} {k : Nat} (h : sig.length ≤ k) :
    byteAt (assemble f sig) (4 + k) = 0 := by
  rw [assemble_slot, if_neg (Nat.not_lt.mpr h)]

/-- A frame of up to seven significant bytes, the first of them not zero, is well-formed (R51). -/
theorem frameWf_assemble (f : WriteFields) {sig : Bytes} (hlen : sig.length ≤ 7)
    (hfirst : sig ≠ [] → byteAt sig 0 ≠ 0) : frameWf (assemble f sig) = true := by
  have hL := assemble_payloadLength f hlen
  have hpad : paddingZero (assemble f sig) = true := by
    simp only [paddingZero, List.all_eq_true, Bool.or_eq_true, decide_eq_true_eq, beq_iff_eq, hL]
    intro k _
    exact (lt_or_ge k sig.length).imp_right (assemble_padding f)
  have hmin : payloadMinimal (assemble f sig) = true := by
    simp only [payloadMinimal, Bool.or_eq_true, beq_iff_eq, bne_iff_ne]
    rcases eq_or_ne sig [] with rfl | hne
    · exact .inl (BitVec.eq_of_toNat_eq hL)
    · have hslot := assemble_slot f sig 0
      rw [if_pos (List.length_pos_iff.mpr hne)] at hslot
      exact .inr (hslot ▸ hfirst hne)
  simp [frameWf, assemble_length f hlen, (assemble_header f sig).1, hL, hlen, hpad, hmin]

/-! ### The operation -/

/-- An admitted request completes with the response of its result. -/
theorem exec_of_admits {s : State} {cmd : Bytes} (ha : s.params.admits cmd.length = true) :
    exec (.encodeWrite cmd) s = .next (writeResponse (responseOf (encodeWrite s.params cmd)) s) := by
  rcases exec_cases cmd s with ⟨-, he⟩ | ⟨hna, -⟩
  · exact he
  · simp [ha] at hna

/-- Fields whose value is below 2^56 have a frame, that of their significant bytes (R70). -/
theorem frameOf_of_lt {f : WriteFields} (h : f.paramValue.toNat < 2 ^ 56) :
    frameOf f = .ok (assemble f (significantBytes f.paramValue)) := by
  have hlen := (significantBytes_length_le_iff f.paramValue 7).mpr h
  rcases frameOf_cases f with ⟨-, hok⟩ | ⟨hgt, -⟩
  · exact hok
  · omega

/-- An accepted command completes with status 0 and the assembled frame. -/
theorem exec_of_accepted {s : State} {cmd : Bytes} {f : WriteFields} (ha : s.params.admits cmd.length = true)
    (hf : FieldsParse s.params cmd f) (hv : f.paramValue.toNat < 2 ^ 56) :
    exec (.encodeWrite cmd) s
      = .next (afterResponse s 0 (some (assemble f (significantBytes f.paramValue)))) := by
  rw [exec_of_admits ha, (encodeWrite_of_parse s.params cmd).2 f (parseCommand_of_fieldsParse hf), frameOf_of_lt hv]
  rfl

end Sys2Proof.Machine

namespace Sys2Proof.Proofs

open Sys2Proof.Machine

/-- Settles O17: the frame is the assembled one of the significant bytes, at most seven for a value below 2^56. -/
theorem acceptedCommandGivesTheGuaranteedFrame : Obligations.AcceptedCommandGivesTheGuaranteedFrame := by
  intro s cmd f ha hf hv
  have hlen : (significantBytes f.paramValue).length ≤ 7 := (significantBytes_length_le_iff _ 7).mpr hv
  have hfirst : significantBytes f.paramValue ≠ [] → byteAt (significantBytes f.paramValue) 0 ≠ 0 :=
    fun hne => significantBytes_first_ne_zero (List.length_pos_iff.mpr hne)
  obtain ⟨hcode, hnode, hindex⟩ := assemble_header f (significantBytes f.paramValue)
  refine ⟨_, significantBytes f.paramValue, exec_of_accepted ha hf hv, assemble_length f hlen, hcode, hnode, hindex,
    assemble_payloadLength f hlen, assemble_payload f _, fun k hk _ => ?_, valBE_significantBytes _, hfirst,
    frameWf_assemble f hlen hfirst⟩
  obtain ⟨j, rfl⟩ := Nat.exists_eq_add_of_le (le_of_add_le_left hk)
  exact assemble_padding f (Nat.le_of_add_le_add_left hk)

/-- Settles O22: both complete with the response of one result, which reads no state but the parameters. -/
theorem resultDependsOnlyOnCommandAndParameters : Obligations.ResultDependsOnlyOnCommandAndParameters := by
  intro s t cmd hp ha
  refine ⟨_, _, exec_of_admits ha, exec_of_admits (hp ▸ ha), ?_⟩
  simp [hp]

end Sys2Proof.Proofs
end

section
/-! PROOFS. When each of the three errors is raised (rules R76, R77, R78). -/

open Sys2Proof.Spec

namespace Sys2Proof.Machine

/-! ### From the response back to the result -/

/-- No two errors share a status code (R75). -/
@[simp] theorem errorCode_inj (e e' : EncodeError) : errorCode e = errorCode e' ↔ e = e' := by
  cases e <;> cases e' <;> decide

/-- A response without a frame comes from the error of its status code, and from no other result (R75). -/
theorem responseOf_eq_error_iff (r : Except EncodeError Bytes) (e : EncodeError) :
    responseOf r = { status := errorCode e, frame := none } ↔ r = .error e := by
  cases r <;> simp [responseOf]

/-- An admitted request ends in the state of an error iff the operation raises that error. -/
theorem exec_eq_error_iff {s : State} {cmd : Bytes} (ha : s.params.admits cmd.length = true) (e : EncodeError) :
    exec (.encodeWrite cmd) s = .next (afterResponse s (errorCode e) none) ↔
      encodeWrite s.params cmd = .error e := by
  rw [exec_of_admits ha, ← responseOf_eq_error_iff]
  constructor
  · intro h
    have hlist := congrArg State.responses (Host.Outcome.next.inj h)
    simpa [afterResponse] using hlist
  · intro h
    rw [h]
    rfl

/-! ### The errors of the first half -/

theorem parseCommand_eq_malformedCommand_iff (p : Params) (cmd : Bytes) :
    parseCommand p cmd = .error .malformedCommand ↔ (tokenise p.wsSet cmd).length ≠ 4 := by
  rcases parseCommand_cases p cmd with ⟨hcount, hp⟩ | ⟨t0, t1, t2, t3, ht, ⟨_, _, _, -, -, -, hp⟩ | ⟨-, hp⟩⟩
  · simp [hp, hcount]
  · simp [hp, ht]
  · simp [hp, ht]

theorem parseCommand_eq_invalidField_iff (p : Params) (cmd : Bytes) :
    parseCommand p cmd = .error .invalidField ↔
      ∃ t0 t1 t2 t3, tokenise p.wsSet cmd = [t0, t1, t2, t3] ∧
        (parseU p.plusSignOk 8 t1 = none ∨ parseU p.plusSignOk 8 t2 = none ∨ parseU p.plusSignOk 64 t3 = none) := by
  rcases parseCommand_cases p cmd with
    ⟨hcount, hp⟩ | ⟨t0, t1, t2, t3, ht, ⟨_, _, _, h1, h2, h3, hp⟩ | ⟨hnone, hp⟩⟩
  · have hne : ∀ t0 t1 t2 t3, tokenise p.wsSet cmd ≠ [t0, t1, t2, t3] := by
      intro t0 t1 t2 t3 ht
      simp [ht] at hcount
    simp [hp, hne]
  · simp [hp, ht, h1, h2, h3]
  · exact iff_of_true hp ⟨t0, t1, t2, t3, ht, hnone⟩

/-- The first half gives exactly the fields that the line parses to. -/
theorem parseCommand_eq_ok_iff (p : Params) (cmd : Bytes) (f : WriteFields) :
    parseCommand p cmd = .ok f ↔ FieldsParse p cmd f := by
  refine ⟨fun h => ?_, parseCommand_of_fieldsParse⟩
  rcases parseCommand_cases p cmd with ⟨-, hp⟩ | ⟨t0, t1, t2, t3, ht, ⟨n, x, v, h1, h2, h3, hp⟩ | ⟨-, hp⟩⟩
  · simp [hp] at h
  · obtain rfl : (⟨n, x, v⟩ : WriteFields) = f := by simpa [hp] using h
    exact ⟨t0, t1, t2, t3, ht, h1, h2, h3⟩
  · simp [hp] at h

/-- The length of the value is not looked at before all fields have parsed (R80). -/
theorem parseCommand_ne_payloadTooLarge (p : Params) (cmd : Bytes) :
    parseCommand p cmd ≠ .error .payloadTooLarge := by
  rcases parseCommand_cases p cmd with ⟨-, hp⟩ | ⟨_, _, _, _, -, ⟨_, _, _, -, -, -, hp⟩ | ⟨-, hp⟩⟩ <;> simp [hp]

/-! ### The errors of the operation -/

/-- The second half fails only with PayloadTooLarge, where seven bytes do not hold the value (R66, R70). -/
theorem frameOf_eq_error_iff (f : WriteFields) (e : EncodeError) :
    frameOf f = .error e ↔ e = .payloadTooLarge ∧ 2 ^ 56 ≤ f.paramValue.toNat := by
  have hlarge : 2 ^ 56 ≤ f.paramValue.toNat ↔ 7 < (significantBytes f.paramValue).length :=
    not_lt.symm.trans ((not_congr (significantBytes_length_le_iff f.paramValue 7).symm).trans not_le)
  rw [hlarge]
  rcases frameOf_cases f with ⟨hle, hok⟩ | ⟨hgt, herr⟩
  · simp [hok, hle]
  · simp [herr, hgt, eq_comm]

/-- An error of the operation is one of its first half, or PayloadTooLarge on fields that parse. -/
theorem encodeWrite_eq_error_iff (p : Params) (cmd : Bytes) (e : EncodeError) :
    encodeWrite p cmd = .error e ↔
      parseCommand p cmd = .error e ∨
        (e = .payloadTooLarge ∧ ∃ f, FieldsParse p cmd f ∧ 2 ^ 56 ≤ f.paramValue.toNat) := by
  simp only [← parseCommand_eq_ok_iff]
  cases hp : parseCommand p cmd with
  | error e' => simp [(encodeWrite_of_parse p cmd).1 e' hp]
  | ok f => simp [(encodeWrite_of_parse p cmd).2 f hp, frameOf_eq_error_iff]

end Sys2Proof.Machine

namespace Sys2Proof.Proofs

open Sys2Proof.Machine

/-- Settles O14: only the first half raises MalformedCommand, on a wrong token count. -/
theorem malformedCommandIffTokenCountNotFour : Obligations.MalformedCommandIffTokenCountNotFour := by
  intro s cmd ha
  refine Iff.trans ?_ (exec_eq_error_iff ha .malformedCommand).symm
  simp [encodeWrite_eq_error_iff, parseCommand_eq_malformedCommand_iff]

/-- Settles O15: only the first half raises InvalidField, on a field that does not parse. -/
theorem invalidFieldIffSomeFieldDoesNotParse : Obligations.InvalidFieldIffSomeFieldDoesNotParse := by
  intro s cmd ha
  refine Iff.trans ?_ (exec_eq_error_iff ha .invalidField).symm
  simp [encodeWrite_eq_error_iff, parseCommand_eq_invalidField_iff]

/-- Settles O16: only the second half raises PayloadTooLarge, so all fields have parsed. -/
theorem payloadTooLargeIffValueNeedsEightBytes : Obligations.PayloadTooLargeIffValueNeedsEightBytes := by
  intro s cmd ha
  refine Iff.trans ?_ (exec_eq_error_iff ha .payloadTooLarge).symm
  simp [encodeWrite_eq_error_iff, parseCommand_ne_payloadTooLarge]

end Sys2Proof.Proofs
end

section
/-! PROOFS. Tokenise against the grammar of a line (rules R15, R40, R55). -/

namespace Sys2Proof.Machine

variable {ws : List Byte}

/-! ### Tokenise piece by piece -/

/-- A gap before a line has no effect. -/
theorem tokenise_gap_append {gap : Bytes} (h : ∀ b ∈ gap, b ∈ ws) (cmd : Bytes) :
    tokenise ws (gap ++ cmd) = tokenise ws cmd := by
  simp only [tokenise, readCommand_eq, List.foldl_append, foldl_tokeniseByte_gap gap h]
  split <;> rfl

/-- A gap after a line only closes the open token, which the end of the line does too. -/
theorem tokenise_append_gap {gap : Bytes} (h : ∀ b ∈ gap, b ∈ ws) (cmd : Bytes) :
    tokenise ws (cmd ++ gap) = tokenise ws cmd := by
  simp only [tokenise, readCommand_eq, List.foldl_append, foldl_tokeniseByte_gap gap h]
  split <;> rfl

/-- A line of whitespace has no tokens. -/
theorem tokenise_gap {gap : Bytes} (h : ∀ b ∈ gap, b ∈ ws) : tokenise ws gap = [] :=
  tokenise_append_gap h []

/-- A token alone is the one token of its line. -/
theorem tokenise_token {tok : Bytes} (hne : tok ≠ []) (h : ∀ b ∈ tok, b ∉ ws) : tokenise ws tok = [tok] := by
  simp [tokenise, readCommand_eq, foldl_tokeniseByte_token tok h, closeToken, hne]

/-- A token that a gap ends is the first of its line, and the rest is a line of its own. -/
theorem tokenise_token_gap_append {tok gap : Bytes} (hne : tok ≠ []) (htok : ∀ b ∈ tok, b ∉ ws)
    (hgapne : gap ≠ []) (hgap : ∀ b ∈ gap, b ∈ ws) (rest : Bytes) :
    tokenise ws (tok ++ gap ++ rest) = tok :: tokenise ws rest := by
  rw [tokenise, readCommand_eq, List.foldl_append, List.foldl_append, foldl_tokeniseByte_token tok htok,
    foldl_tokeniseByte_gap gap hgap, if_neg hgapne, closeToken_foldl_closed]
  simp [closeToken, hne]

/-! ### From the grammar to Tokenise -/

/-- After a first token, the tail of the grammar gives the remaining tokens. -/
theorem tokenise_token_append_tail {toks : List Bytes} {tail : Bytes} (htail : IsTail ws toks tail) {tok : Bytes}
    (hne : tok ≠ []) (htok : ∀ b ∈ tok, b ∉ ws) : tokenise ws (tok ++ tail) = tok :: toks := by
  induction htail generalizing tok with
  | blank gap hgap => rw [tokenise_append_gap hgap, tokenise_token hne htok]
  | more gap tok' tail toks hgapne hgap htokne' hbytes' _ ih =>
    rw [List.append_assoc gap, ← List.append_assoc tok, tokenise_token_gap_append hne htok hgapne hgap, ih htokne' hbytes']

/-- Tokenise gives the tokens of every split by the grammar. -/
theorem tokenise_of_isLine {toks : List Bytes} {cmd : Bytes} (h : IsLine ws toks cmd) : tokenise ws cmd = toks := by
  cases h with
  | blank _ hgap => exact tokenise_gap hgap
  | tokens lead tok tail toks hlead hne hbytes htail =>
    rw [List.append_assoc, tokenise_gap_append hlead, tokenise_token_append_tail htail hne hbytes]

/-! ### Every byte string is a line -/

/-- A whitespace byte before a line lengthens its leading gap. -/
theorem isLine_cons_whitespace {toks : List Bytes} {cmd : Bytes} {b : Byte} (hb : b ∈ ws) (h : IsLine ws toks cmd) :
    IsLine ws toks (b :: cmd) := by
  cases h with
  | blank _ hgap => exact .blank (b :: cmd) (List.forall_mem_cons.mpr ⟨hb, hgap⟩)
  | tokens lead tok tail toks hlead hne hbytes htail =>
    exact .tokens (b :: lead) tok tail toks (List.forall_mem_cons.mpr ⟨hb, hlead⟩) hne hbytes htail

/-- A token byte before a line lengthens its first token, or is a token of its own before a gap. -/
theorem exists_isLine_cons_token {toks : List Bytes} {cmd : Bytes} {b : Byte} (hb : b ∉ ws) (h : IsLine ws toks cmd) :
    ∃ toks', IsLine ws toks' (b :: cmd) := by
  have hself : ∀ c ∈ [b], c ∉ ws := List.forall_mem_singleton.mpr hb
  cases h with
  | blank _ hgap => exact ⟨_, .tokens [] [b] cmd [] (by simp) (by simp) hself (.blank cmd hgap)⟩
  | tokens lead tok tail toks hlead hne hbytes htail =>
    rcases eq_or_ne lead [] with rfl | hleadne
    · exact ⟨_, .tokens [] (b :: tok) tail toks (by simp) (by simp) (List.forall_mem_cons.mpr ⟨hb, hbytes⟩) htail⟩
    · exact ⟨_, .tokens [] [b] (lead ++ tok ++ tail) (tok :: toks) (by simp) (by simp) hself
        (.more lead tok tail toks hleadne hlead hne hbytes htail)⟩

/-- Every byte string is a line of the grammar. -/
theorem exists_isLine (ws : List Byte) (cmd : Bytes) : ∃ toks, IsLine ws toks cmd := by
  induction cmd with
  | nil => exact ⟨[], .blank [] (by simp)⟩
  | cons b cmd ih =>
    obtain ⟨toks, h⟩ := ih
    by_cases hb : b ∈ ws
    · exact ⟨toks, isLine_cons_whitespace hb h⟩
    · exact exists_isLine_cons_token hb h

/-- The split that Tokenise gives is one of the grammar. -/
theorem isLine_tokenise (ws : List Byte) (cmd : Bytes) : IsLine ws (tokenise ws cmd) cmd := by
  obtain ⟨toks, h⟩ := exists_isLine ws cmd
  rwa [tokenise_of_isLine h]

/-! ### What the tokens of a line hold -/

theorem filter_gap {gap : Bytes} (h : ∀ b ∈ gap, b ∈ ws) : gap.filter (fun b => !ws.contains b) = [] := by
  simpa using h

theorem filter_token {tok : Bytes} (h : ∀ b ∈ tok, b ∉ ws) : tok.filter (fun b => !ws.contains b) = tok := by
  simpa using h

theorem flatten_tokens_of_isTail {toks : List Bytes} {tail : Bytes} (h : IsTail ws toks tail) :
    toks.flatten = tail.filter (fun b => !ws.contains b) ∧ ∀ tok ∈ toks, tok ≠ [] := by
  induction h with
  | blank gap hgap => exact ⟨(filter_gap hgap).symm, by simp⟩
  | more gap tok tail toks _ hgap hne hbytes _ ih =>
    refine ⟨?_, List.forall_mem_cons.mpr ⟨hne, ih.2⟩⟩
    rw [List.flatten_cons, List.filter_append, List.filter_append, filter_gap hgap, filter_token hbytes, ih.1,
      List.nil_append]

theorem flatten_tokens_of_isLine {toks : List Bytes} {cmd : Bytes} (h : IsLine ws toks cmd) :
    toks.flatten = cmd.filter (fun b => !ws.contains b) ∧ ∀ tok ∈ toks, tok ≠ [] := by
  cases h with
  | blank gap hgap => exact ⟨(filter_gap hgap).symm, by simp⟩
  | tokens lead tok tail toks hlead hne hbytes htail =>
    obtain ⟨hflat, htoks⟩ := flatten_tokens_of_isTail htail
    refine ⟨?_, List.forall_mem_cons.mpr ⟨hne, htoks⟩⟩
    rw [List.flatten_cons, List.filter_append, List.filter_append, filter_gap hlead, filter_token hbytes, hflat,
      List.nil_append]

end Sys2Proof.Machine

namespace Sys2Proof.Proofs

open Sys2Proof.Machine

/-- Settles O25: Tokenise gives the tokens of every split by the grammar, and every byte string has one. -/
theorem tokeniseIsTheUniqueSplitOfTheGrammar : Obligations.TokeniseIsTheUniqueSplitOfTheGrammar := by
  intro ws cmd toks
  constructor
  · exact tokenise_of_isLine
  · rintro rfl
    exact isLine_tokenise ws cmd

/-- Settles O26: a gap before opens no token, and a gap after closes the last one as the end of the line does. -/
theorem outerWhitespaceHasNoEffect : Obligations.OuterWhitespaceHasNoEffect := by
  intro ws gap cmd hgap
  exact ⟨tokenise_gap_append hgap cmd, tokenise_append_gap hgap cmd⟩

/-- Settles O27: along the split by the grammar, gaps hold whitespace only and tokens none. -/
theorem tokensHoldTheTokenBytesInOrder : Obligations.TokensHoldTheTokenBytesInOrder := by
  intro ws cmd
  exact flatten_tokens_of_isLine (isLine_tokenise ws cmd)

end Sys2Proof.Proofs
end

section
/-! PROOFS. The 88-bit word, the 11 bytes, and the table's row (rules R6, R48, R70). -/

namespace Sys2Proof

/-! ### Big-endian values -/

@[simp] theorem byteAt_cons_zero (b : Byte) (s : Bytes) : byteAt (b :: s) 0 = b := rfl

@[simp] theorem byteAt_cons_succ (b : Byte) (s : Bytes) (k : Nat) : byteAt (b :: s) (k + 1) = byteAt s k := by
  simp [byteAt]

/-- A string whose bytes are the base-256 digits of a number has that number as its value. -/
theorem valBE_eq_of_bytes {s : Bytes} {n : Nat} (hn : n < 256 ^ s.length)
    (h : ∀ k, k < s.length → (byteAt s k).toNat = n / 256 ^ (s.length - 1 - k) % 256) : valBE s = n := by
  induction s generalizing n with
  | nil => simpa [valBE_nil, eq_comm] using hn
  | cons b s ih =>
    have hb : b.toNat = n / 256 ^ s.length := by
      have hdigit : n / 256 ^ s.length < 256 := Nat.div_lt_of_lt_mul (by simpa [Nat.pow_succ] using hn)
      simpa [Nat.mod_eq_of_lt hdigit] using h 0 (by simp)
    have hs : valBE s = n % 256 ^ s.length := by
      refine ih (Nat.mod_lt _ (by positivity)) fun k hk => ?_
      have hk' := h (k + 1) (by simpa using hk)
      have hsub : (b :: s).length - 1 - (k + 1) = s.length - 1 - k := by simp; omega
      have hsplit : 256 ^ s.length = 256 ^ (s.length - 1 - k) * (256 * 256 ^ k) := by
        rw [← Nat.pow_succ', ← Nat.pow_add]
        congr 1
        omega
      rw [byteAt_cons_succ, hsub] at hk'
      rw [hk', hsplit, Nat.mod_mul_right_div_self, Nat.mod_mod_of_dvd _ (Nat.dvd_mul_right _ _)]
    rw [valBE_cons, hb, hs]
    exact Nat.div_add_mod' _ _

/-! ### The two views of a frame -/

@[simp] theorem wordFrame_length (W : FrameWord) : (wordFrame W).length = 11 := by simp [wordFrame]

theorem byteAt_wordFrame (W : FrameWord) {i : Nat} (hi : i ≤ 10) :
    byteAt (wordFrame W) i = W.extractLsb' (80 - 8 * i) 8 := by
  have hlt : i < 11 := by omega
  simp [byteAt, wordFrame, hlt]

/-- The bytes of a word have the word as their value: each is the digit at its place. -/
@[simp] theorem valBE_wordFrame (W : FrameWord) : valBE (wordFrame W) = W.toNat := by
  refine valBE_eq_of_bytes (by simpa using W.isLt) fun k hk => ?_
  rw [wordFrame_length] at hk ⊢
  have hplace : 80 - 8 * k = 8 * (11 - 1 - k) := by omega
  rw [byteAt_wordFrame W (by omega), BitVec.extractLsb'_toNat, hplace, Nat.shiftRight_eq_div_pow, Nat.pow_mul]

@[simp] theorem frameWord_wordFrame (W : FrameWord) : frameWord (wordFrame W) = W := by simp [frameWord]

/-- The word of an 11-byte string holds its value unreduced. -/
theorem toNat_frameWord {F : Bytes} (h : F.length = 11) : (frameWord F).toNat = valBE F := by
  have hlt : valBE F < 2 ^ 88 := by simpa [h] using valBE_lt F
  rw [frameWord, BitVec.toNat_ofNat, Nat.mod_eq_of_lt hlt]

theorem wordFrame_frameWord {F : Bytes} (h : F.length = 11) : wordFrame (frameWord F) = F :=
  valBE_inj (by rw [wordFrame_length, h]) (by rw [valBE_wordFrame, toNat_frameWord h])

/-! ### The table's row -/

/-- The value of a word and a word after it: the first moves up by the second's width. -/
theorem toNat_append_eq_add {m n : Nat} (x : BitVec m) (y : BitVec n) :
    (x ++ y).toNat = x.toNat * 2 ^ n + y.toNat := by
  rw [BitVec.toNat_append, ← Nat.shiftLeft_add_eq_or_of_lt y.isLt, Nat.shiftLeft_eq]

/-- The payload area of the row: the value left-aligned in its 56 bits (R48). -/
def payloadArea (v : BitVec 64) : BitVec 56 :=
  v.setWidth 56 <<< (8 * (Config.payloadSlots - payloadLength v))

theorem encodeWord_eq (f : WriteFields) :
    encodeWord f = 0x07#8 ++ f.nodeId ++ f.paramIndex ++ (0#5 ++ BitVec.ofNat 3 (payloadLength f.paramValue))
      ++ payloadArea f.paramValue := rfl

/-- The row's match and mask, field by field: the mask holds the fixed bits and no other (R48). -/
theorem row_and_mask (n p : BitVec 8) (l : BitVec 3) (a : BitVec 56) :
    (0x07#8 ++ n ++ p ++ (0#5 ++ l) ++ a) &&& (0xFF#8 ++ 0#8 ++ 0#8 ++ (0x1F#5 ++ 0#3) ++ 0#56)
      = 0x07#8 ++ 0#8 ++ 0#8 ++ (0#5 ++ 0#3) ++ 0#56 := by
  simp only [BitVec.and_append, BitVec.and_zero, BitVec.zero_and, BitVec.reduceAnd]

theorem encodeWord_and_mask (f : WriteFields) :
    encodeWord f &&& 0xFF0000F800000000000000#88 = 0x0700000000000000000000#88 := by
  have hmask : 0xFF0000F800000000000000#88 = 0xFF#8 ++ 0#8 ++ 0#8 ++ (0x1F#5 ++ 0#3) ++ 0#56 := by decide
  have hmatch : 0x0700000000000000000000#88 = 0x07#8 ++ 0#8 ++ 0#8 ++ (0#5 ++ 0#3) ++ 0#56 := by decide
  rw [hmask, hmatch]
  exact row_and_mask _ _ _ _

theorem encodeWord_mod (f : WriteFields) : (encodeWord f).toNat % 2 ^ 56 = (payloadArea f.paramValue).toNat := by
  rw [encodeWord_eq, toNat_append_eq_add, Nat.mul_add_mod', Nat.mod_eq_of_lt (BitVec.isLt _)]

namespace Machine

/-- The thresholds of the table are the powers of 256 on both sides of the value (R70). -/
theorem payloadLength_bounds (v : BitVec 64) : v.toNat < 256 ^ payloadLength v ∧
    (payloadLength v = 0 ∨ 256 ^ (payloadLength v - 1) ≤ v.toNat) := by
  have hv := v.isLt
  unfold payloadLength
  split_ifs <;> omega

/-- The table's length is the number of significant bytes, the least that can hold the value (R70). -/
theorem payloadLength_eq (v : BitVec 64) : payloadLength v = (significantBytes v).length := by
  obtain ⟨hlt, hle⟩ := payloadLength_bounds v
  refine le_antisymm ?_ ((significantBytes_length_le_iff v _).mpr hlt)
  rcases hle with h0 | hle
  · exact h0 ▸ Nat.zero_le _
  · have hnot := (not_congr (significantBytes_length_le_iff v _)).mpr (Nat.not_lt.mpr hle)
    omega

theorem payloadLength_le_iff (v : BitVec 64) (k : Nat) : payloadLength v ≤ k ↔ v.toNat < 256 ^ k :=
  payloadLength_eq v ▸ significantBytes_length_le_iff v k

/-- A value below 2^56 shifts inside the payload area: no bit of it is lost (R48). -/
theorem toNat_payloadArea {v : BitVec 64} (h : v.toNat < 2 ^ 56) :
    (payloadArea v).toNat = v.toNat * 256 ^ (7 - payloadLength v) := by
  have hL : payloadLength v ≤ 7 := (payloadLength_le_iff v 7).mpr h
  have hfit : v.toNat * 256 ^ (7 - payloadLength v) < 2 ^ 56 := by
    have hpow : (2 : Nat) ^ 56 = 256 ^ payloadLength v * 256 ^ (7 - payloadLength v) := by
      rw [← Nat.pow_add, Nat.add_sub_cancel' hL]
      norm_num
    rw [hpow]
    exact Nat.mul_lt_mul_of_pos_right ((payloadLength_le_iff v _).mp le_rfl) (by positivity)
  rw [payloadArea, BitVec.toNat_shiftLeft, BitVec.toNat_setWidth, Nat.mod_eq_of_lt h, Nat.shiftLeft_eq, Nat.pow_mul]
  exact Nat.mod_eq_of_lt hfit

/-- The algorithm's frame and the table's row have one value: the header, then the value left-aligned. -/
theorem valBE_assemble {f : WriteFields} (h : f.paramValue.toNat < 2 ^ 56) :
    valBE (assemble f (significantBytes f.paramValue)) = (encodeWord f).toNat := by
  have hL : payloadLength f.paramValue ≤ 7 := (payloadLength_le_iff _ 7).mpr h
  have hbyte : payloadLength f.paramValue % 2 ^ 8 = payloadLength f.paramValue := Nat.mod_eq_of_lt (by omega)
  have hbits : payloadLength f.paramValue % 2 ^ 3 = payloadLength f.paramValue := Nat.mod_eq_of_lt (by omega)
  rw [assemble_eq, encodeWord_eq]
  simp only [valBE_cons, valBE_append, valBE_significantBytes, valBE_replicate_zero, toNat_append_eq_add,
    toNat_payloadArea h, List.length_cons, List.length_append, List.length_replicate, ← payloadLength_eq,
    Nat.add_sub_cancel' hL, BitVec.toNat_ofNat, hbyte, hbits]
  ring

theorem encodeFrame_eq_assemble {f : WriteFields} (h : f.paramValue.toNat < 2 ^ 56) :
    encodeFrame f = assemble f (significantBytes f.paramValue) := by
  have hlen : (significantBytes f.paramValue).length ≤ 7 := (significantBytes_length_le_iff _ 7).mpr h
  refine valBE_inj ?_ ?_
  · rw [encodeFrame, wordFrame_length, assemble_length f hlen]
  · rw [encodeFrame, valBE_wordFrame, valBE_assemble h]

end Machine

end Sys2Proof

namespace Sys2Proof.Proofs

open Sys2Proof.Machine

/-- Settles O36: the first byte has the weight of the bytes after it. -/
theorem bigEndianValueIsThePositionalSum : Obligations.BigEndianValueIsThePositionalSum := by
  intro s
  induction s with
  | nil => rfl
  | cons b s ih =>
    rw [valBE_cons, ih, List.length_cons, List.range_succ_eq_map]
    simp [Function.comp_def, Nat.sub_sub, Nat.add_comm 1]

/-- Settles O37: each byte of a word is the digit at its place, so the two views have one value. -/
theorem wordAndBytesAreTwoViewsOfTheFrame : Obligations.WordAndBytesAreTwoViewsOfTheFrame := by
  exact ⟨fun F => wordFrame_frameWord, fun W => ⟨frameWord_wordFrame W, fun i => byteAt_wordFrame W⟩⟩

/-- Settles O33: both lengths are the least that holds the value. -/
theorem payloadLengthIsLeastAndFollowsTheThresholds : Obligations.PayloadLengthIsLeastAndFollowsTheThresholds := by
  intro v
  exact ⟨(payloadLength_eq v).symm, significantBytes_length_le_iff v⟩

end Sys2Proof.Proofs
end

section
/-! PROOFS. The frame decoder and the table's encoder are inverse to each other (rules R50, R51, R52, R71). -/

open Sys2Proof.Spec

namespace Sys2Proof

/-! ### The well-formedness check -/

theorem paddingZero_iff (F : Bytes) : paddingZero F = true ↔
    ∀ k, (byteAt F 3).toNat ≤ k → k < 7 → byteAt F (4 + k) = 0x00#8 := by
  simp only [paddingZero, List.all_eq_true, List.mem_range, Bool.or_eq_true, decide_eq_true_eq, beq_iff_eq]
  exact forall_congr' fun k => ⟨fun h hle hlt => (h hlt).resolve_left (Nat.not_lt.mpr hle),
    fun h hlt => (Nat.lt_or_ge k _).imp_right fun hle => h hle hlt⟩

theorem payloadMinimal_iff (F : Bytes) : payloadMinimal F = true ↔
    (0 < (byteAt F 3).toNat → byteAt F 4 ≠ 0x00#8) := by
  have hzero : byteAt F 3 = 0 ↔ (byteAt F 3).toNat = 0 := BitVec.toNat_eq
  simp only [payloadMinimal, Bool.or_eq_true, beq_iff_eq, bne_iff_ne, hzero, Nat.pos_iff_ne_zero]
  exact Decidable.or_iff_not_imp_left

/-- The check `frameWf` is WF as R51 writes it. -/
theorem frameWf_iff (F : Bytes) : frameWf F = true ↔ WF F := by
  simp only [frameWf, WF, Bool.and_eq_true, beq_iff_eq, decide_eq_true_eq, paddingZero_iff, payloadMinimal_iff, and_assoc]

/-- The fields of a frame, read off where the frame is well-formed (R71). -/
def fieldsOf (F : Bytes) : WriteFields :=
  { nodeId := byteAt F 1, paramIndex := byteAt F 2, paramValue := BitVec.ofNat 64 (valBE (payloadOf F)) }

/-- The decoder accepts the well-formed frames, and reads their fields off. -/
theorem decodeFrame_eq_ok_iff (F : Bytes) (f : WriteFields) :
    decodeFrame F = .ok f ↔ frameWf F = true ∧ f = fieldsOf F := by
  unfold decodeFrame
  split_ifs with hlen hcode hL hpad hmin
  · simp [frameWf, hlen]
  · simp [frameWf, hcode]
  · simp [frameWf, Nat.not_le.mpr hL]
  · simp [frameWf, hpad]
  · simp [frameWf, hmin]
  · have hwf : frameWf F = true := by
      simp [frameWf, not_not.mp hlen, not_not.mp hcode, Nat.not_lt.mp hL, hpad, hmin]
    exact ⟨fun h => ⟨hwf, (Except.ok.inj h).symm⟩, fun ⟨_, hf⟩ => congrArg Except.ok hf.symm⟩

/-! ### The parts of a well-formed frame -/

theorem payloadOf_length {F : Bytes} (h : WF F) : (payloadOf F).length = (byteAt F 3).toNat := by
  obtain ⟨hlen, -, hL, -⟩ := h
  rw [payloadOf, List.length_take, List.length_drop, hlen]
  exact Nat.min_eq_left hL

theorem payloadOf_length_le {F : Bytes} (h : WF F) : (payloadOf F).length ≤ 7 := by
  rw [payloadOf_length h]
  obtain ⟨-, -, hL, -⟩ := h
  exact hL

/-- The encoding of the payload is minimal (R51). -/
theorem payloadOf_first_ne_zero {F : Bytes} (h : WF F) (hne : payloadOf F ≠ []) : byteAt (payloadOf F) 0 ≠ 0 := by
  have hpos : 0 < (byteAt F 3).toNat := payloadOf_length h ▸ List.length_pos_iff.mpr hne
  have hfirst : byteAt (payloadOf F) 0 = byteAt F 4 := by
    rw [byteAt, payloadOf, List.getD_eq_getElem?_getD, List.getElem?_take_of_lt hpos, List.getElem?_drop, byteAt,
      List.getD_eq_getElem?_getD]
  obtain ⟨-, -, -, -, hmin⟩ := h
  exact hfirst ▸ hmin hpos

/-- The slots after the payload are zeros (R47). -/
theorem padding_eq_replicate {F : Bytes} (h : WF F) :
    F.drop (4 + (byteAt F 3).toNat) = List.replicate (7 - (byteAt F 3).toNat) 0 := by
  obtain ⟨hlen, -, hL, hpad, -⟩ := h
  refine List.ext_getElem (by simp [hlen]; omega) fun k hk _ => ?_
  have hk' : (byteAt F 3).toNat + k < 7 := by rw [List.length_drop, hlen] at hk; omega
  have hslot := hpad ((byteAt F 3).toNat + k) (Nat.le_add_right _ _) hk'
  rw [byteAt, List.getD_eq_getElem _ _ (by omega)] at hslot
  simpa [Nat.add_assoc] using hslot

/-- A string of at least four bytes is its first four bytes and the rest. -/
theorem eq_header_append_drop {F : Bytes} (h : 4 ≤ F.length) :
    F = byteAt F 0 :: byteAt F 1 :: byteAt F 2 :: byteAt F 3 :: F.drop 4 := by
  match F, h with
  | _ :: _ :: _ :: _ :: _, _ => rfl

namespace Machine

/-- A well-formed frame is assembled from its fields and its payload (R51). -/
theorem assemble_fieldsOf {F : Bytes} (h : WF F) : assemble (fieldsOf F) (payloadOf F) = F := by
  have hpay := payloadOf_length h
  have hpad := padding_eq_replicate h
  obtain ⟨hlen, hcode, -⟩ := h
  have hdrop : F.drop 4 = payloadOf F ++ List.replicate (7 - (byteAt F 3).toNat) 0 := by
    rw [← hpad, ← List.drop_drop, payloadOf, List.take_append_drop]
  have hF := eq_header_append_drop (F := F) (by omega)
  rw [hdrop, hcode] at hF
  rw [assemble_eq, hpay, BitVec.ofNat_toNat, BitVec.setWidth_eq]
  exact hF.symm

/-- Bytes that are a minimal encoding are the significant bytes of their value (R51, R65). -/
theorem significantBytes_of_minimal {sig : Bytes} (hlen : sig.length ≤ 8) (hfirst : sig ≠ [] → byteAt sig 0 ≠ 0) :
    significantBytes (BitVec.ofNat 64 (valBE sig)) = sig := by
  have hlt : valBE sig < 2 ^ 64 := (valBE_lt sig).trans_le (Nat.pow_le_pow_right (n := 256) (by norm_num) hlen)
  have hv : (BitVec.ofNat 64 (valBE sig)).toNat = valBE sig := by rw [BitVec.toNat_ofNat, Nat.mod_eq_of_lt hlt]
  have hle_iff := significantBytes_length_le_iff (BitVec.ofNat 64 (valBE sig))
  rw [hv] at hle_iff
  refine valBE_inj (le_antisymm ((hle_iff _).mpr (valBE_lt sig)) ?_) (by rw [valBE_significantBytes, hv])
  cases sig with
  | nil => exact Nat.zero_le _
  | cons b s =>
    have hreach : 256 ^ s.length ≤ valBE (b :: s) := pow_le_valBE_cons (hfirst (by simp)) s
    exact Nat.lt_of_not_le fun hle => Nat.not_lt.mpr hreach ((hle_iff _).mp hle)

/-! ### Encode after decode -/

/-- A payload of at most seven bytes has a value below 2^56 (R70). -/
theorem fieldsOf_wf {F : Bytes} (h : WF F) : (fieldsOf F).paramValue.toNat < 2 ^ 56 := by
  have hlt : valBE (payloadOf F) < 2 ^ 56 :=
    (valBE_lt _).trans_le (Nat.pow_le_pow_right (n := 256) (by norm_num) (payloadOf_length_le h))
  exact (Nat.mod_le _ _).trans_lt hlt

/-- A well-formed frame is the frame of its fields. -/
theorem encodeFrame_fieldsOf {F : Bytes} (h : WF F) : encodeFrame (fieldsOf F) = F := by
  have hsig : significantBytes (fieldsOf F).paramValue = payloadOf F :=
    significantBytes_of_minimal ((payloadOf_length_le h).trans (by norm_num)) (payloadOf_first_ne_zero h)
  rw [encodeFrame_eq_assemble (fieldsOf_wf h), hsig, assemble_fieldsOf h]

/-! ### Decode after encode -/

/-- The frame of fields with a value below 2^56 is well-formed. -/
theorem frameWf_encodeFrame {f : WriteFields} (h : f.paramValue.toNat < 2 ^ 56) : frameWf (encodeFrame f) = true := by
  rw [encodeFrame_eq_assemble h]
  exact frameWf_assemble f ((significantBytes_length_le_iff _ 7).mpr h) fun hne =>
    significantBytes_first_ne_zero (List.length_pos_iff.mpr hne)

/-- The fields read off a frame are those it was made of. -/
theorem fieldsOf_encodeFrame {f : WriteFields} (h : f.paramValue.toNat < 2 ^ 56) : fieldsOf (encodeFrame f) = f := by
  have hlen : (significantBytes f.paramValue).length ≤ 7 := (significantBytes_length_le_iff _ 7).mpr h
  obtain ⟨-, hnode, hindex⟩ := assemble_header f (significantBytes f.paramValue)
  have hpay : payloadOf (assemble f (significantBytes f.paramValue)) = significantBytes f.paramValue := by
    rw [payloadOf, assemble_payloadLength f hlen, assemble_payload]
  rw [encodeFrame_eq_assemble h, fieldsOf, hnode, hindex, hpay, valBE_significantBytes, BitVec.ofNat_toNat,
    BitVec.setWidth_eq]

end Machine

theorem WriteFields.wf_iff (f : WriteFields) : f.wf = true ↔ f.paramValue.toNat < 2 ^ 56 := decide_eq_true_iff

end Sys2Proof

namespace Sys2Proof.Proofs

open Sys2Proof.Machine

/-- Settles O38: the frame is well-formed, and each field stands where the decoder reads it. -/
theorem decodeOfEncodedFrameGivesTheFields : Obligations.DecodeOfEncodedFrameGivesTheFields := by
  intro f hf
  rw [WriteFields.wf_iff] at hf
  exact (decodeFrame_eq_ok_iff _ f).mpr ⟨frameWf_encodeFrame hf, (fieldsOf_encodeFrame hf).symm⟩

/-- Settles O39: a well-formed frame is assembled from its payload, which is minimal and so holds exactly the significant
bytes of its value. -/
theorem encodeOfDecodedFrameGivesTheFrame : Obligations.EncodeOfDecodedFrameGivesTheFrame := by
  intro F f hdec
  obtain ⟨hwf, rfl⟩ := (decodeFrame_eq_ok_iff F f).mp hdec
  rw [frameWf_iff] at hwf
  exact ⟨(WriteFields.wf_iff _).mpr (fieldsOf_wf hwf), encodeFrame_fieldsOf hwf⟩

/-- Settles O40: the decoder's checks are the conjuncts of WF, in their order. -/
theorem decoderAcceptsExactlyWellFormedFrames : Obligations.DecoderAcceptsExactlyWellFormedFrames := by
  intro F
  refine ⟨?_, frameWf_iff F, fun hlen => ?_, fun hlen hcode => ?_, fun hlen hcode hL => ?_,
    fun hlen hcode hL ⟨k, hle, hlt, hslot⟩ => ?_, fun hlen hcode hL hzero hpos hfirst => ?_⟩
  · simp [decodeFrame_eq_ok_iff, frameWf_iff]
  · simp [decodeFrame, hlen]
  · simp [decodeFrame, hlen, hcode]
  · simp [decodeFrame, hlen, hcode, hL]
  · have hpad : paddingZero F = false :=
      Bool.eq_false_iff.mpr fun h => hslot ((paddingZero_iff F).mp h k hle hlt)
    simp [decodeFrame, hlen, hcode, Nat.not_lt.mpr hL, hpad]
  · have hpad : paddingZero F = true := (paddingZero_iff F).mpr hzero
    have hmin : payloadMinimal F = false :=
      Bool.eq_false_iff.mpr fun h => (payloadMinimal_iff F).mp h hpos hfirst
    simp [decodeFrame, hlen, hcode, Nat.not_lt.mpr hL, hpad, hmin]

end Sys2Proof.Proofs
end

section
/-! PROOFS. Decimal numerals and the canonical command line (rules R39, R41, R51, R58, R63). -/

open Sys2Proof.Spec

namespace Sys2Proof

/-- A run of ASCII digits (R41). -/
def AllDigits (ds : Bytes) : Prop := ∀ c ∈ ds, 0x30 ≤ c.toNat ∧ c.toNat ≤ 0x39

theorem AllDigits.append {ds es : Bytes} (hd : AllDigits ds) (he : AllDigits es) : AllDigits (ds ++ es) :=
  fun c hc => (List.mem_append.mp hc).elim (hd c) (he c)

theorem allDigits_singleton {d : Nat} (hd : d < 10) : AllDigits [digitByte d] := by
  refine List.forall_mem_singleton.mpr ?_
  have hmod : (0x30 + d) % 2 ^ 8 = 0x30 + d := Nat.mod_eq_of_lt (by omega)
  rw [digitByte, BitVec.toNat_ofNat, hmod]
  omega

/-! ### The value of digits -/

@[simp] theorem decimalValue_cons_zero (ds : Bytes) : decimalValue (0x30#8 :: ds) = decimalValue ds := by
  simp [decimalValue]

/-- One more digit moves the others up by ten. -/
theorem decimalValue_append_singleton (ds : Bytes) (c : Byte) :
    decimalValue (ds ++ [c]) = 10 * decimalValue ds + (c.toNat - 0x30) := by
  induction ds with
  | nil => simp [decimalValue]
  | cons d ds ih =>
    rw [List.cons_append, decimalValue, ih, decimalValue, List.length_append, List.length_singleton, Nat.pow_succ]
    ring

/-- Leading zeros are worth nothing (R63). -/
theorem decimalValue_dropWhile_zero (ds : Bytes) :
    decimalValue (ds.dropWhile (· == 0x30#8)) = decimalValue ds := by
  induction ds with
  | nil => rfl
  | cons c ds ih =>
    by_cases hc : c = 0x30#8
    · simpa [hc] using ih
    · simp [hc]

/-- The value is that of Mathlib's digit lists, least significant digit first. -/
theorem decimalValue_eq_ofDigits (ds : Bytes) :
    decimalValue ds = Nat.ofDigits 10 (ds.map fun c => c.toNat - 0x30).reverse := by
  induction ds with
  | nil => rfl
  | cons c ds ih =>
    rw [decimalValue, ih, List.map_cons, List.reverse_cons, Nat.ofDigits_append, Nat.ofDigits_singleton,
      List.length_reverse, List.length_map]
    ring

theorem digitByte_toNat_sub {c : Byte} (h : 0x30 ≤ c.toNat ∧ c.toNat ≤ 0x39) : digitByte (c.toNat - 0x30) = c := by
  rw [digitByte, Nat.add_sub_cancel' h.1, BitVec.ofNat_toNat, BitVec.setWidth_eq]

/-- Digits without a leading zero are the decimal digits of their value. -/
theorem eq_digits_decimalValue {ds : Bytes} (hdigits : AllDigits ds) (hfirst : ∀ c ∈ ds.head?, c ≠ 0x30#8) :
    ds = ((Nat.digits 10 (decimalValue ds)).reverse).map digitByte := by
  have hlt : ∀ d ∈ (ds.map fun c => c.toNat - 0x30).reverse, d < 10 := by
    simp only [List.mem_reverse, List.forall_mem_map]
    intro c hc
    have := hdigits c hc
    omega
  have hlast : ∀ h : (ds.map fun c => c.toNat - 0x30).reverse ≠ [],
      (ds.map fun c => c.toNat - 0x30).reverse.getLast h ≠ 0 := by
    cases ds with
    | nil => simp
    | cons c ds =>
      intro h
      have hrange := hdigits c List.mem_cons_self
      have hne : c.toNat ≠ 0x30 := fun h => hfirst c (by simp) (BitVec.eq_of_toNat_eq h)
      simp
      omega
  rw [decimalValue_eq_ofDigits, Nat.digits_ofDigits 10 (by norm_num) _ hlt hlast, List.reverse_reverse, List.map_map]
  conv_lhs => rw [← List.map_id ds]
  exact List.map_congr_left fun c hc => (digitByte_toNat_sub (hdigits c hc)).symm

/-- Digits less leading zeros are the decimal digits of the value, so that equal values have equal ones (R63). -/
theorem dropWhile_zero_eq {ds : Bytes} (hdigits : AllDigits ds) :
    ds.dropWhile (· == 0x30#8) = ((Nat.digits 10 (decimalValue ds)).reverse).map digitByte := by
  rw [← decimalValue_dropWhile_zero]
  refine eq_digits_decimalValue (fun c hc => hdigits c ((List.dropWhile_suffix _).mem hc)) fun c hc => ?_
  have hstop := List.head?_dropWhile_not (· == 0x30#8) ds
  rw [Option.mem_def.mp hc] at hstop
  simpa using hstop

/-! ### The numeral of a number -/

theorem allDigits_decimalDigits (fuel n : Nat) : AllDigits (decimalDigits fuel n) := by
  induction fuel generalizing n with
  | zero => simp [AllDigits, decimalDigits]
  | succ fuel ih =>
    rw [decimalDigits]
    split_ifs with hn
    · exact allDigits_singleton hn
    · exact (ih _).append (allDigits_singleton (Nat.mod_lt _ (by norm_num)))

theorem decimalDigits_succ_ne_nil (fuel n : Nat) : decimalDigits (fuel + 1) n ≠ [] := by
  rw [decimalDigits]
  split_ifs <;> simp

theorem digitByte_sub {d : Nat} (hd : d < 10) : (digitByte d).toNat - 0x30 = d := by
  have hmod : (0x30 + d) % 2 ^ 8 = 0x30 + d := Nat.mod_eq_of_lt (by omega)
  rw [digitByte, BitVec.toNat_ofNat, hmod, Nat.add_sub_cancel_left]

/-- Enough fuel gives the digits of the whole number. -/
theorem decimalValue_decimalDigits {fuel n : Nat} (h : n < 10 ^ fuel) : decimalValue (decimalDigits fuel n) = n := by
  induction fuel generalizing n with
  | zero => simpa [decimalDigits, decimalValue, eq_comm] using h
  | succ fuel ih =>
    rw [decimalDigits]
    split_ifs with hn
    · simpa [decimalValue] using digitByte_sub hn
    · have hdiv : n / 10 < 10 ^ fuel := Nat.div_lt_of_lt_mul (by rwa [← Nat.pow_succ'])
      rw [decimalValue_append_singleton, ih hdiv, digitByte_sub (Nat.mod_lt _ (by norm_num)), Nat.div_add_mod]

theorem numeral_ne_nil (n : Nat) : numeral n ≠ [] := decimalDigits_succ_ne_nil 19 n

/-- No digit is a default whitespace byte. -/
theorem numeral_not_whitespace (n : Nat) : ∀ b ∈ numeral n, b ∉ Params.defaultWsSet := by
  intro b hb hws
  have hrange := allDigits_decimalDigits 20 n b hb
  have hsmall : ∀ c ∈ Params.defaultWsSet, c.toNat < 0x30 := by decide
  exact absurd (hsmall b hws) (Nat.not_lt.mpr hrange.1)

namespace Machine

/-- The numeral of a value parses to it, at any width up to 64 (R58). -/
theorem parseU_numeral (plusOk : Bool) {w : Nat} (hw : w ≤ 64) (v : BitVec w) :
    parseU plusOk w (numeral v.toNat) = some v := by
  have hdigits := allDigits_decimalDigits 20 v.toNat
  have hv : v.toNat < 10 ^ 20 :=
    v.isLt.trans_le ((Nat.pow_le_pow_right (n := 2) (by norm_num) hw).trans (by norm_num))
  rw [parseU_eq_some, dropPlus_of_digits plusOk (ds := numeral v.toNat) hdigits]
  exact ⟨numeral_ne_nil _, hdigits, decimalValue_decimalDigits hv⟩

/-- The canonical line splits into the keyword and the three numerals. -/
theorem tokenise_commandLine (f : WriteFields) : tokenise Params.defaultWsSet (commandLine f) =
    [[0x77#8, 0x72#8, 0x69#8, 0x74#8, 0x65#8], numeral f.nodeId.toNat, numeral f.paramIndex.toNat,
      numeral f.paramValue.toNat] := by
  have hspace : ∀ b ∈ [0x20#8], b ∈ Params.defaultWsSet := by decide
  have hkeyword : ∀ b ∈ [0x77#8, 0x72#8, 0x69#8, 0x74#8, 0x65#8], b ∉ Params.defaultWsSet := by decide
  have hline : commandLine f = [0x77#8, 0x72#8, 0x69#8, 0x74#8, 0x65#8] ++ [0x20#8] ++ (numeral f.nodeId.toNat
      ++ [0x20#8] ++ (numeral f.paramIndex.toNat ++ [0x20#8] ++ numeral f.paramValue.toNat)) := by
    simp [commandLine, writeKeyword]
  rw [hline, tokenise_token_gap_append (by simp) hkeyword (by simp) hspace,
    tokenise_token_gap_append (numeral_ne_nil _) (numeral_not_whitespace _) (by simp) hspace,
    tokenise_token_gap_append (numeral_ne_nil _) (numeral_not_whitespace _) (by simp) hspace,
    tokenise_token (numeral_ne_nil _) (numeral_not_whitespace _)]

/-- The canonical line parses to its fields (R39, R51). -/
theorem fieldsParse_commandLine {p : Params} (hp : p.wsSet = Params.defaultWsSet) (f : WriteFields) :
    FieldsParse p (commandLine f) f :=
  ⟨_, _, _, _, hp ▸ tokenise_commandLine f, parseU_numeral _ (by norm_num) _, parseU_numeral _ (by norm_num) _,
    parseU_numeral _ le_rfl _⟩

/-- A numeral that parses gives the value of its digits (R58). -/
theorem decimalValue_of_parseU {plusOk : Bool} {w : Nat} {tok ds : Bytes} {v : BitVec w}
    (hn : IsNumeral plusOk tok ds) (hp : parseU plusOk w tok = some v) : decimalValue ds = v.toNat := by
  obtain ⟨rfl, -⟩ := (isNumeral_iff plusOk tok ds).mp hn
  obtain ⟨-, -, hvalue⟩ := (parseU_eq_some plusOk w tok v).mp hp
  exact hvalue

/-! ### The digit loop in a register -/

/-- The value only grows along the digits. -/
theorem le_of_accumulate {v n : Nat} {ds : Bytes} (h : accumulate v ds = some n) : v ≤ n := by
  obtain ⟨-, rfl⟩ := (accumulate_eq_some v n ds).mp h
  exact (Nat.le_mul_of_pos_right v (by positivity)).trans (Nat.le_add_right _ _)

/-- A value that has left the register does not come back, so checking each step is checking the end (R63). -/
theorem accumulateChecked_eq_filter (w : Nat) {v : Nat} (hv : v < 2 ^ w) (ds : Bytes) :
    accumulateChecked w v ds = (accumulate v ds).filter (fun n => decide (n < 2 ^ w)) := by
  induction ds generalizing v with
  | nil => simp [accumulateChecked, accumulate, Option.filter, hv]
  | cons c cs ih =>
    simp only [accumulateChecked, accumulate]
    split_ifs with hdigit hlt
    · exact ih hlt
    · refine (Option.filter_eq_none_iff.mpr fun n hn => ?_).symm
      simpa using (Nat.not_lt.mp hlt).trans (le_of_accumulate hn)
    · rfl

end Machine

end Sys2Proof

namespace Sys2Proof.Proofs

open Sys2Proof.Machine

/-- Settles O29: the digits less leading zeros and the value determine each other. -/
theorem equalValuesDifferOnlyInPlusAndLeadingZeros : Obligations.EqualValuesDifferOnlyInPlusAndLeadingZeros := by
  intro plusOk w t₁ t₂ d₁ d₂ v₁ v₂ hn₁ hn₂ hp₁ hp₂
  rw [BitVec.toNat_eq, ← decimalValue_of_parseU hn₁ hp₁, ← decimalValue_of_parseU hn₂ hp₂]
  constructor
  · intro h
    rw [dropWhile_zero_eq hn₁.digits, dropWhile_zero_eq hn₂.digits, h]
  · intro h
    rw [← decimalValue_dropWhile_zero, h, decimalValue_dropWhile_zero]

/-- Settles O30: the loop starts in the register, at 0. -/
theorem checkedRegisterLoopEqualsUnboundedLoop : Obligations.CheckedRegisterLoopEqualsUnboundedLoop := by
  intro w ds
  exact accumulateChecked_eq_filter w (by positivity) ds

/-- Settles O41: digits are no whitespace, so the line splits at its three spaces, and each numeral parses to its number. -/
theorem canonicalCommandLineParsesToItsFields : Obligations.CanonicalCommandLineParsesToItsFields := by
  intro p f hp
  exact fieldsParse_commandLine hp f

end Sys2Proof.Proofs
end

section
/-! PROOFS. The result of ENCODE_WRITE: its status, its frame, and what they depend on (rules R51, R57, R70, R72, R80, R87). -/

open Sys2Proof.Spec

namespace Sys2Proof.Machine

/-! ### The response to a request -/

/-- A refusal lists no response, so it is no completed operation. -/
theorem refuseRequest_ne_afterResponse (s : State) (c : BitVec 2) (F : Option Bytes) :
    refuseRequest s ≠ afterResponse s c F := by
  intro h
  have hlist := congrArg State.responses h
  simp [afterResponse] at hlist

/-- A request ends in a response iff it is admitted and the response is that of its result. -/
theorem exec_eq_afterResponse_iff {s : State} {cmd : Bytes} {c : BitVec 2} {F : Option Bytes} :
    exec (.encodeWrite cmd) s = .next (afterResponse s c F) ↔
      s.params.admits cmd.length = true ∧ responseOf (encodeWrite s.params cmd) = { status := c, frame := F } := by
  rcases exec_cases cmd s with ⟨ha, he⟩ | ⟨ha, he⟩
  · simp only [he, ha, true_and, Host.Outcome.next.injEq]
    constructor
    · intro h
      have hlist := congrArg State.responses h
      simpa [afterResponse] using hlist
    · intro h
      rw [h]
      rfl
  · simp [he, ha, refuseRequest_ne_afterResponse]

/-- Only a frame gives a response of status 0 with that frame (R75). -/
theorem responseOf_eq_ok_iff (r : Except EncodeError Bytes) (F : Bytes) :
    responseOf r = { status := 0, frame := some F } ↔ r = .ok F := by
  cases r <;> simp [responseOf, okCode]

/-- A response has a frame iff its status is OK (R75). -/
theorem responseOf_frame_isSome_iff (r : Except EncodeError Bytes) :
    (responseOf r).frame.isSome = true ↔ (responseOf r).status = okCode := by
  cases r with
  | ok F => simp [responseOf]
  | error e => cases e <;> decide

/-! ### The frame of a command -/

/-- The operation gives a frame iff the line parses to well-formed fields, and the frame is theirs by the table (R68, R70). -/
theorem encodeWrite_eq_ok_iff (p : Params) (cmd F : Bytes) :
    encodeWrite p cmd = .ok F ↔ ∃ f, FieldsParse p cmd f ∧ f.wf = true ∧ encodeFrame f = F := by
  constructor
  · intro h
    cases hp : parseCommand p cmd with
    | error e => simp [(encodeWrite_of_parse p cmd).1 e hp] at h
    | ok f =>
      rw [(encodeWrite_of_parse p cmd).2 f hp] at h
      have hv : f.paramValue.toNat < 2 ^ 56 := by
        by_contra hge
        simp [(frameOf_eq_error_iff f .payloadTooLarge).mpr ⟨rfl, Nat.not_lt.mp hge⟩] at h
      rw [frameOf_of_lt hv, ← encodeFrame_eq_assemble hv] at h
      exact ⟨f, (parseCommand_eq_ok_iff p cmd f).mp hp, (WriteFields.wf_iff f).mpr hv, Except.ok.inj h⟩
  · rintro ⟨f, hf, hwf, rfl⟩
    rw [WriteFields.wf_iff] at hwf
    rw [(encodeWrite_of_parse p cmd).2 f (parseCommand_of_fieldsParse hf), frameOf_of_lt hwf, encodeFrame_eq_assemble hwf]

/-- A line parses to at most one triple of fields. -/
theorem fieldsParse_unique {p : Params} {cmd : Bytes} {f g : WriteFields} (hf : FieldsParse p cmd f)
    (hg : FieldsParse p cmd g) : f = g := by
  have h := (parseCommand_of_fieldsParse hf).symm.trans (parseCommand_of_fieldsParse hg)
  exact Except.ok.inj h

/-- Every frame that the operation gives is well-formed (R51). -/
theorem frameWf_of_encodeWrite {p : Params} {cmd F : Bytes} (h : encodeWrite p cmd = .ok F) : frameWf F = true := by
  obtain ⟨f, -, hwf, rfl⟩ := (encodeWrite_eq_ok_iff p cmd F).mp h
  exact frameWf_encodeFrame ((WriteFields.wf_iff f).mp hwf)

/-- A request that ends with a frame, and the fields it parses to: the frame is theirs, and they are well-formed. -/
theorem encodeFrame_of_exec {s : State} {cmd F : Bytes} {f : WriteFields}
    (he : exec (.encodeWrite cmd) s = .next (afterResponse s 0 (some F))) (hf : FieldsParse s.params cmd f) :
    f.wf = true ∧ encodeFrame f = F := by
  obtain ⟨-, hr⟩ := exec_eq_afterResponse_iff.mp he
  obtain ⟨g, hg, hwf, hF⟩ := (encodeWrite_eq_ok_iff _ _ _).mp ((responseOf_eq_ok_iff _ _).mp hr)
  obtain rfl := fieldsParse_unique hf hg
  exact ⟨hwf, hF⟩

/-- Well-formed fields are those that the decoder reads off their frame, so equal frames have equal fields (R72). -/
theorem encodeFrame_inj {f g : WriteFields} (hf : f.wf = true) (hg : g.wf = true)
    (h : encodeFrame f = encodeFrame g) : f = g := by
  rw [WriteFields.wf_iff] at hf hg
  rw [← fieldsOf_encodeFrame hf, h, fieldsOf_encodeFrame hg]

/-! ### What the result does not depend on -/

/-- CheckCount looks at no byte of token 0 (R57). -/
theorem checkCount_cons (k₁ k₂ : Bytes) (toks : List Bytes) : checkCount (k₁ :: toks) = checkCount (k₂ :: toks) := by
  match toks with
  | [] | [_] | [_, _] | [_, _, _] | _ :: _ :: _ :: _ :: _ => rfl

theorem encodeWrite_congr {p : Params} {c₁ c₂ : Bytes}
    (h : checkCount (tokenise p.wsSet c₁) = checkCount (tokenise p.wsSet c₂)) :
    encodeWrite p c₁ = encodeWrite p c₂ := by
  simp only [encodeWrite, parseCommand, h]

/-! ### The status of a request -/

/-- Four tokens whose fields do not all parse are InvalidField (R77). -/
theorem encodeWrite_eq_invalidField {p : Params} {cmd : Bytes} (hcount : (tokenise p.wsSet cmd).length = 4)
    (hnone : ¬ ∃ f, FieldsParse p cmd f) : encodeWrite p cmd = .error .invalidField := by
  cases hp : parseCommand p cmd with
  | ok f => exact absurd ⟨f, (parseCommand_eq_ok_iff p cmd f).mp hp⟩ hnone
  | error e =>
    rw [(encodeWrite_of_parse p cmd).1 e hp]
    cases e with
    | malformedCommand => exact absurd hcount ((parseCommand_eq_malformedCommand_iff p cmd).mp hp)
    | invalidField => rfl
    | payloadTooLarge => exact absurd hp (parseCommand_ne_payloadTooLarge p cmd)

theorem encodeWrite_eq_malformedCommand {p : Params} {cmd : Bytes} (hcount : (tokenise p.wsSet cmd).length ≠ 4) :
    encodeWrite p cmd = .error .malformedCommand :=
  (encodeWrite_eq_error_iff p cmd _).mpr (.inl ((parseCommand_eq_malformedCommand_iff p cmd).mpr hcount))

theorem encodeWrite_eq_payloadTooLarge {p : Params} {cmd : Bytes} {f : WriteFields} (hf : FieldsParse p cmd f)
    (hv : 2 ^ 56 ≤ f.paramValue.toNat) : encodeWrite p cmd = .error .payloadTooLarge :=
  (encodeWrite_eq_error_iff p cmd _).mpr (.inr ⟨rfl, f, hf, hv⟩)

theorem encodeWrite_eq_encodeFrame {p : Params} {cmd : Bytes} {f : WriteFields} (hf : FieldsParse p cmd f)
    (hwf : f.wf = true) : encodeWrite p cmd = .ok (encodeFrame f) :=
  (encodeWrite_eq_ok_iff p cmd _).mpr ⟨f, hf, hwf, rfl⟩

/-! ### The bound -/

theorem admits_iff (p : Params) (n : Nat) : p.admits n = true ↔ ∀ m, p.maxCmdBytes = some m → n ≤ m := by
  cases h : p.maxCmdBytes with
  | none => simp [admits_of_none h]
  | some m => simp [admits_of_some h]

/-- An admitted request ends in a response. -/
theorem exec_exists_afterResponse {s : State} {cmd : Bytes} (ha : s.params.admits cmd.length = true) :
    ∃ c F, exec (.encodeWrite cmd) s = .next (afterResponse s c F) :=
  ⟨_, _, exec_of_admits ha⟩

theorem exec_of_not_admits {s : State} {cmd : Bytes} (ha : s.params.admits cmd.length = false) :
    exec (.encodeWrite cmd) s = .next (refuseRequest s) := by
  rcases exec_cases cmd s with ⟨hna, -⟩ | ⟨-, he⟩
  · simp [ha] at hna
  · exact he

theorem admits_default {s : State} (hp : s.params = Params.default) (n : Nat) : s.params.admits n = true :=
  admits_of_none (hp ▸ rfl) n

/-- Under the default parameters the canonical line of well-formed fields gives their frame (R51). -/
theorem exec_commandLine {s : State} {f : WriteFields} (hp : s.params = Params.default) (hwf : f.wf = true) :
    exec (.encodeWrite (commandLine f)) s = .next (afterResponse s 0 (some (encodeFrame f))) := by
  have hf : FieldsParse s.params (commandLine f) f := fieldsParse_commandLine (hp ▸ rfl) f
  rw [exec_of_admits (admits_default hp _), encodeWrite_eq_encodeFrame hf hwf]
  rfl

end Sys2Proof.Machine

namespace Sys2Proof.Proofs

open Sys2Proof.Machine

/-- Settles O42: a produced frame is that of well-formed fields, and a well-formed frame is produced by the canonical line of
its fields. -/
theorem producibleFramesAreExactlyWellFormedFrames : Obligations.ProducibleFramesAreExactlyWellFormedFrames := by
  intro s F hp
  constructor
  · rintro ⟨cmd, he⟩
    obtain ⟨-, hr⟩ := exec_eq_afterResponse_iff.mp he
    exact frameWf_of_encodeWrite ((responseOf_eq_ok_iff _ F).mp hr)
  · intro h
    rw [frameWf_iff] at h
    have he := exec_commandLine hp ((WriteFields.wf_iff _).mpr (fieldsOf_wf h))
    rw [encodeFrame_fieldsOf h] at he
    exact ⟨_, he⟩

/-- Settles O18: the assembled frame and the table's row have one value. -/
theorem acceptedCommandGivesTheTableRow : Obligations.AcceptedCommandGivesTheTableRow := by
  intro s cmd f ha hf hwf
  rw [exec_of_admits ha, encodeWrite_eq_encodeFrame hf hwf]
  rfl

/-- Settles O19: the response is that of the result, which each clause fixes. -/
theorem everyAdmittedRequestCompletesInPrecedence : Obligations.EveryAdmittedRequestCompletesInPrecedence := by
  intro s cmd ha
  refine ⟨_, _, exec_of_admits ha, responseOf_frame_isSome_iff _, fun hcount => ?_, fun hcount hnone => ?_, fun f hf => ?_⟩
  · rw [encodeWrite_eq_malformedCommand hcount]
    rfl
  · rw [encodeWrite_eq_invalidField hcount hnone]
    rfl
  · split_ifs with hv
    · rw [encodeWrite_eq_payloadTooLarge hf hv]
      rfl
    · rw [encodeWrite_eq_encodeFrame hf ((WriteFields.wf_iff f).mpr (Nat.not_le.mp hv))]
      rfl

/-- Settles O20: the bound decides between the two cases of exec. -/
theorem overlongRequestIsRefused : Obligations.OverlongRequestIsRefused := by
  intro s cmd
  refine ⟨fun m hm hlong => ?_, fun m hm hle => ?_, fun hnone => ?_, admits_iff _ _⟩
  · exact exec_of_not_admits (by simpa [admits_of_some hm] using hlong)
  · exact exec_exists_afterResponse (by simpa [admits_of_some hm] using hle)
  · exact exec_exists_afterResponse (admits_of_none hnone _)

/-- Settles O21: exec writes a response or refuses, and each leaves the other fields. -/
theorem encodeWriteLeavesTheRestUnchanged : Obligations.EncodeWriteLeavesTheRestUnchanged := by
  intro s t cmd h
  rcases exec_cases cmd s with ⟨ha, he⟩ | ⟨ha, he⟩ <;> obtain rfl := Host.Outcome.next.inj (he.symm.trans h)
  · simp [ha]
  · simp [ha]

/-- Settles O23: the count is checked and the fields are parsed without token 0. -/
theorem keywordIsNotExamined : Obligations.KeywordIsNotExamined := by
  intro s c₁ c₂ k₁ k₂ toks h₁ h₂ ha₁ ha₂
  have hresult : encodeWrite s.params c₁ = encodeWrite s.params c₂ :=
    encodeWrite_congr (by rw [h₁, h₂, checkCount_cons])
  rw [exec_of_admits ha₁, exec_of_admits ha₂, hresult]

/-- Settles O24: each frame is that of its fields, and the decoder reads them back. -/
theorem equalFramesIffEqualFields : Obligations.EqualFramesIffEqualFields := by
  intro s c₁ c₂ F₁ F₂ f₁ f₂ he₁ he₂ hf₁ hf₂
  obtain ⟨hwf₁, rfl⟩ := encodeFrame_of_exec he₁ hf₁
  obtain ⟨hwf₂, rfl⟩ := encodeFrame_of_exec he₂ hf₂
  exact ⟨encodeFrame_inj hwf₁ hwf₂, congrArg encodeFrame⟩

/-- Settles O35: the frame's word is the table's row, whose fixed bits and payload area are known. -/
theorem producedWordMatchesTheTableMask : Obligations.ProducedWordMatchesTheTableMask := by
  intro s t cmd F f ha hf he hF
  obtain ⟨hlen, rfl⟩ := frame_eq_assemble_of_exec ha hf he hF
  have hv : f.paramValue.toNat < 2 ^ 56 := (significantBytes_length_le_iff _ 7).mp hlen
  rw [assemble_payloadLength f hlen, ← encodeFrame_eq_assemble hv, encodeFrame, frameWord_wordFrame]
  refine ⟨encodeWord_and_mask f, ?_⟩
  rw [encodeWord_mod, toNat_payloadArea hv, payloadLength_eq, Nat.pow_mul]

end Sys2Proof.Proofs
end

section
/-! PROOFS. What one step does: reset, host reads, the request port, and what every step keeps (rules R14 to R18, R31, R87
to R89). -/

open Sys2Proof.Spec

namespace Sys2Proof.Machine

variable {s t : State}

/-! ### One turn -/

theorem step_host {a : HostAction} {rest : List Turn} (h : s.schedule = .host a :: rest) : step s = hostTurn a rest s := by
  simp only [step, takeTurn, h]

/-- The block moves at its turn and where the schedule has ended (assumption 3). -/
theorem step_block (h : s.schedule = [] ∨ ∃ rest, s.schedule = .block :: rest) :
    step s = serve { s with schedule := s.schedule.tail } := by
  rcases h with h | ⟨rest, h⟩
  · obtain ⟨_, _, _, _, _, _, _, _, _⟩ := s
    obtain rfl := h
    rfl
  · simp only [step, takeTurn, h, List.tail_cons]

theorem serve_of_idle (h : s.reqCmd = none) : serve s = .next s := by
  simp only [serve, h]

/-- The block runs what the pending request decodes to, with the request taken (R15, assumption 16). -/
theorem serve_of_decode {cmd : Bytes} {i : Instr} (hr : s.reqCmd = some cmd) (hd : decodeRequest s.params cmd = .ok i) :
    serve s = exec i (takeRequest s) := by
  simp only [serve, hr, hd]

/-- The block answers an admitted request with the response of its result (R34). -/
theorem serve_of_admits {cmd : Bytes} (hr : s.reqCmd = some cmd) (ha : s.params.admits cmd.length = true) :
    serve s = .next (writeResponse (responseOf (encodeWrite s.params cmd)) (takeRequest s)) :=
  (serve_of_decode hr (if_pos ha)).trans (exec_of_admits (s := takeRequest s) ha)

/-- A turn of the block neither faults nor is refused (R88). -/
theorem serve_exists_next (s : State) : ∃ t, serve s = .next t := by
  rcases serve_cases s with ⟨-, h⟩ | ⟨_, -, -, h⟩ | ⟨_, -, -, h⟩ <;> exact ⟨_, h⟩

theorem step_issue_free {cmd : Bytes} {rest : List Turn} (h : s.schedule = .host (.issue cmd) :: rest)
    (hr : s.reqCmd = none) : step s = .next (issueRequest cmd { s with schedule := rest }) := by
  simp only [step_host h, hostTurn, hostIssue, hr]

/-- While a request is pending the block serves it first (R34, assumption 4). -/
theorem step_issue_busy {c cmd : Bytes} {rest : List Turn} (h : s.schedule = .host (.issue cmd) :: rest)
    (hr : s.reqCmd = some c) : step s = serve s := by
  simp only [step_host h, hostTurn, hostIssue, hr]

/-- An admitted request issued at a free port is pending (R14). -/
theorem step_issue_of_admits {cmd : Bytes} {rest : List Turn} (h : s.schedule = .host (.issue cmd) :: rest)
    (hr : s.reqCmd = none) (ha : s.params.admits cmd.length = true) :
    step s = .next { s with schedule := rest, reqCmd := some cmd } := by
  simp only [step_issue_free h hr, issueRequest, ha, if_true]

/-- An over-long request sets the refusal mark and is not kept (R87). -/
theorem step_issue_of_not_admits {cmd : Bytes} {rest : List Turn} (h : s.schedule = .host (.issue cmd) :: rest)
    (hr : s.reqCmd = none) (ha : s.params.admits cmd.length = false) :
    step s = .next { s with schedule := rest, refusalMark := true } := by
  simp only [step_issue_free h hr, issueRequest, ha, Bool.false_eq_true, if_false, refuseRequest]

/-! ### What a step can change -/

/-- `t` holds the response registers, the responses and the parameters of `s`, its refusal mark if set, and no request but that
of `s` or one within the bound. -/
structure KeepsResponse (s t : State) : Prop where
  params : t.params = s.params
  rspValid : t.rspValid = s.rspValid
  rspStatus : t.rspStatus = s.rspStatus
  rspFrame : t.rspFrame = s.rspFrame
  responses : t.responses = s.responses
  mark : s.refusalMark = true → t.refusalMark = true
  request : ∀ cmd, t.reqCmd = some cmd → s.reqCmd = some cmd ∨ s.params.admits cmd.length = true

/-- A host resets the block (R89). -/
def Resets (s t : State) : Prop :=
  ∃ rest, s.schedule = .host .reset :: rest ∧ t = resetBlock { s with schedule := rest }

/-- A response of the block to the pending request, which it takes (R31). -/
def Responds (s t : State) : Prop :=
  ∃ cmd sched, s.reqCmd = some cmd ∧ s.params.admits cmd.length = true ∧
    t = writeResponse (responseOf (encodeWrite s.params cmd)) (takeRequest { s with schedule := sched })

/-- The schedule is no part of what a step keeps. -/
theorem keepsResponse_of_schedule {sched : List Turn} (h : KeepsResponse { s with schedule := sched } t) :
    KeepsResponse s t :=
  ⟨h.params, h.rspValid, h.rspStatus, h.rspFrame, h.responses, h.mark, h.request⟩

theorem keepsResponse_refuseRequest (h : KeepsResponse s t) : KeepsResponse s (refuseRequest t) :=
  ⟨h.params, h.rspValid, h.rspStatus, h.rspFrame, h.responses, fun _ => rfl, h.request⟩

theorem keepsResponse_refl (s : State) : KeepsResponse s s := ⟨rfl, rfl, rfl, rfl, rfl, id, fun _ => .inl⟩

theorem keepsResponse_takeRequest (s : State) : KeepsResponse s (takeRequest s) :=
  ⟨rfl, rfl, rfl, rfl, rfl, id, by simp⟩

theorem keepsResponse_recordRead (v : ReadValue) (s : State) : KeepsResponse s (recordRead v s) :=
  ⟨rfl, rfl, rfl, rfl, rfl, id, fun _ => .inl⟩

theorem keepsResponse_issueRequest (cmd : Bytes) (s : State) : KeepsResponse s (issueRequest cmd s) := by
  rcases issueRequest_cases s cmd with ⟨ha, h⟩ | ⟨-, h⟩ <;> rw [h]
  · exact ⟨rfl, rfl, rfl, rfl, rfl, id, fun _ hr => .inr (Option.some.inj hr ▸ ha)⟩
  · exact keepsResponse_refuseRequest (keepsResponse_refl s)

/-- A turn of the block, whatever the schedule after it. -/
theorem serve_next_cases {sched : List Turn} (h : serve { s with schedule := sched } = .next t) :
    KeepsResponse s t ∨ Responds s t := by
  rcases serve_cases { s with schedule := sched } with ⟨-, hs⟩ | ⟨cmd, hr, ha, hs⟩ | ⟨cmd, hr, ha, hs⟩ <;>
    obtain rfl := Host.Outcome.next.inj (hs.symm.trans h)
  · exact .inl (keepsResponse_of_schedule (keepsResponse_refl _))
  · exact .inr ⟨cmd, sched, hr, ha, rfl⟩
  · exact .inl (keepsResponse_of_schedule (keepsResponse_refuseRequest (keepsResponse_takeRequest _)))

/-- Every step keeps the response registers, or resets the block, or responds to the pending request (R31). -/
theorem step_next_cases (h : step s = .next t) : KeepsResponse s t ∨ Resets s t ∨ Responds s t := by
  have served {sched : List Turn} (hs : serve { s with schedule := sched } = .next t) :
      KeepsResponse s t ∨ Resets s t ∨ Responds s t := (serve_next_cases hs).imp_right .inr
  have kept {u : State} {rest : List Turn} (hk : KeepsResponse { s with schedule := rest } u)
      (hu : (.next u : Result) = .next t) : KeepsResponse s t ∨ Resets s t ∨ Responds s t :=
    .inl (Host.Outcome.next.inj hu ▸ keepsResponse_of_schedule hk)
  rcases step_cases s with ⟨-, hs⟩ | ⟨_, -, hs⟩ | ⟨_, _, -, ⟨-, hs⟩ | ⟨-, hs⟩⟩ | ⟨_, -, hs⟩ |
    ⟨_, -, ⟨_, -, hs⟩ | ⟨-, hs⟩⟩ | ⟨_, -, ⟨_, -, hs⟩ | ⟨-, hs⟩⟩ | ⟨rest, hr, hs⟩ <;> rw [hs] at h
  case inl | inr.inl | inr.inr.inl.inl => exact served h
  case inr.inr.inl.inr => exact kept (keepsResponse_issueRequest _ _) h
  case inr.inr.inr.inl | inr.inr.inr.inr.inl.inl | inr.inr.inr.inr.inr.inl.inl =>
    exact kept (keepsResponse_recordRead _ _) h
  case inr.inr.inr.inr.inl.inr | inr.inr.inr.inr.inr.inl.inr => cases h
  case inr.inr.inr.inr.inr.inr => exact .inr (.inl ⟨rest, hr, (Host.Outcome.next.inj h).symm⟩)

/-! ### The invariant -/

/-- A response of ENCODE_WRITE has a frame iff its status is OK, and a well-formed one (R51, R75). -/
theorem responseOf_consistent (p : Params) (cmd : Bytes) : (responseOf (encodeWrite p cmd)).Consistent := by
  refine ⟨responseOf_frame_isSome_iff _, fun F hF => ?_⟩
  cases h : encodeWrite p cmd with
  | ok G =>
    obtain rfl : G = F := by simpa [h, responseOf] using hF
    exact frameWf_of_encodeWrite h
  | error e => simp [h, responseOf] at hF

theorem KeepsResponse.inv (hk : KeepsResponse s t) (h : s.Inv) : t.Inv where
  status_iff_valid := by rw [hk.rspStatus, hk.rspValid]; exact h.status_iff_valid
  frame_iff_ok := by rw [hk.rspStatus, hk.rspFrame]; exact h.frame_iff_ok
  frame_wf := by rw [hk.rspFrame]; exact h.frame_wf
  last_response := by rw [hk.rspStatus, hk.rspFrame, hk.responses]; exact h.last_response
  responses_consistent := by rw [hk.responses]; exact h.responses_consistent
  request_admitted := fun cmd hr => hk.params ▸ (hk.request cmd hr).elim (h.request_admitted cmd) id

/-- A reset leaves no response held and no request pending (R89). -/
theorem Resets.inv (hr : Resets s t) (h : s.Inv) : t.Inv := by
  obtain ⟨rest, -, rfl⟩ := hr
  exact ⟨by simp, by simp, by simp, by simp, h.responses_consistent, by simp⟩

/-- A response is consistent, and the last one listed (R31, R96). -/
theorem Responds.inv (hr : Responds s t) (h : s.Inv) : t.Inv := by
  obtain ⟨cmd, sched, -, -, rfl⟩ := hr
  have hc := responseOf_consistent s.params cmd
  refine ⟨by simp, by simpa using hc.frame_iff_ok, hc.frame_wf, by simp, ?_, by simp⟩
  simp only [writeResponse_responses, takeRequest_responses, List.mem_append, List.mem_singleton]
  rintro r (hr | rfl)
  · exact h.responses_consistent r hr
  · exact hc

end Sys2Proof.Machine

namespace Sys2Proof.Proofs

open Sys2Proof.Machine

/-- Settles O45: each of the three things a step can do keeps the invariant. -/
theorem stepKeepsInvariant : Obligations.StepKeepsInvariant := by
  intro s t hinv h
  rcases step_next_cases h with hk | hr | hr
  · exact hk.inv hinv
  · exact hr.inv hinv
  · exact hr.inv hinv

/-- Settles O2: a reset writes the interface registers alone. -/
theorem resetActionClearsOnlyTheInterfaceRegisters : Obligations.ResetActionClearsOnlyTheInterfaceRegisters := by
  intro s rest h
  exact step_host h

/-- Settles O1, by the reset state's own fields. -/
theorem resetStateHoldsNoResponse : Obligations.ResetStateHoldsNoResponse := by
  exact ⟨rfl, rfl, rfl, rfl⟩

/-- Settles O3: after reset nothing is held, listed or pending. -/
theorem resetSatisfiesInvariant : Obligations.ResetSatisfiesInvariant := by
  constructor <;> simp [State.reset]

/-- Settles O4: the register always holds a value to read. -/
theorem validReadReturnsValid : Obligations.ValidReadReturnsValid := by
  intro s rest h
  exact step_host h

/-- Settles O5: the read goes by what the register holds. -/
theorem statusReadReturnsStatusOrFaults : Obligations.StatusReadReturnsStatusOrFaults := by
  intro s rest h
  constructor
  · intro c hc
    simp only [step_host h, hostTurn, readStatus, hc]
    rfl
  · intro hnone
    simp only [step_host h, hostTurn, readStatus, hnone]

/-- Settles O6: the read goes by what the register holds. -/
theorem frameReadReturnsFrameOrFaults : Obligations.FrameReadReturnsFrameOrFaults := by
  intro s rest h
  constructor
  · intro F hF
    simp only [step_host h, hostTurn, readFrame, hF]
    rfl
  · intro hnone
    simp only [step_host h, hostTurn, readFrame, hnone]

/-- Settles O7: under the invariant the register that is read holds a value. -/
theorem readsSucceedWhereAResponseIsHeld : Obligations.ReadsSucceedWhereAResponseIsHeld := by
  intro s hinv
  constructor
  · intro rest h hvalid
    obtain ⟨c, hc⟩ := Option.isSome_iff_exists.mp (hinv.status_iff_valid.mpr hvalid)
    exact ⟨c, hc, _, (statusReadReturnsStatusOrFaults s rest h).1 c hc, rfl⟩
  · intro rest h hok
    obtain ⟨F, hF⟩ := Option.isSome_iff_exists.mp (hinv.frame_iff_ok.mpr hok)
    exact ⟨F, hF, hinv.frame_wf F hF, _, (frameReadReturnsFrameOrFaults s rest h).1 F hF, rfl⟩

/-- Settles O8: only the two reads fault, and only where their register holds ⊥. -/
theorem stepStopsExactlyOnReadsOfNoValue : Obligations.StepStopsExactlyOnReadsOfNoValue := by
  intro s
  rcases step_cases s with ⟨h, hs⟩ | ⟨rest, h, hs⟩ | ⟨cmd, rest, h, ⟨-, hs⟩ | ⟨-, hs⟩⟩ | ⟨rest, h, hs⟩ |
    ⟨rest, h, ⟨c, hc, hs⟩ | ⟨hc, hs⟩⟩ | ⟨rest, h, ⟨F, hF, hs⟩ | ⟨hF, hs⟩⟩ | ⟨rest, h, hs⟩
  case inl | inr.inr.inl.inl =>
    obtain ⟨t, ht⟩ := serve_exists_next s
    simp [hs, ht, h]
  case inr.inl =>
    obtain ⟨t, ht⟩ := serve_exists_next { s with schedule := rest }
    simp [hs, ht, h]
  case inr.inr.inl.inr | inr.inr.inr.inl | inr.inr.inr.inr.inr.inr => simp [hs, h]
  case inr.inr.inr.inr.inl.inl | inr.inr.inr.inr.inl.inr => simp [hs, h, hc]
  case inr.inr.inr.inr.inr.inl.inl | inr.inr.inr.inr.inr.inl.inr => simp [hs, h, hF]

/-- Settles O9: the block takes the request and runs what it decodes to. -/
theorem stepRunsTheDecodedRequest : Obligations.StepRunsTheDecodedRequest := by
  intro s cmd i h hr hd
  exact (step_block h).trans (serve_of_decode hr hd)

/-- Settles O10: the placed request decodes to the instruction where that is well-formed, and the block moves next. -/
theorem placedTableWordIsRunByTheNextStep : Obligations.PlacedTableWordIsRunByTheNextStep := by
  intro s nbits w i hw hwf
  have hplace : s.withFetchWord nbits w = placeRequest i s := by simp only [State.withFetchWord, hw]
  have hdecode : decodeRequest (placeRequest i s).params (encodeRequest i) = .ok i := by
    cases i with
    | encodeWrite cmd => exact Laws.RequestRoundTrip.encodeWrite cmd s.params hwf
  rw [hplace, stepRunsTheDecodedRequest _ _ i (.inr ⟨s.schedule, rfl⟩) (placeRequest_reqCmd s i) hdecode]
  rfl

/-- Settles O11: with nothing pending the block leaves the state. -/
theorem idleBlockTurnChangesNothing : Obligations.IdleBlockTurnChangesNothing := by
  intro s h hr
  exact (step_block h).trans (serve_of_idle hr)

/-- Settles O12: the bound decides between the two cases of an issue. -/
theorem issueMakesRequestPendingOrIsRefused : Obligations.IssueMakesRequestPendingOrIsRefused := by
  intro s cmd rest h hr
  refine ⟨fun hnone => ?_, fun m hm hle => ?_, fun m hm hlong => ?_⟩
  · exact step_issue_of_admits h hr (admits_of_none hnone _)
  · exact step_issue_of_admits h hr ((admits_of_some hm _).trans (decide_eq_true hle))
  · exact step_issue_of_not_admits h hr ((admits_of_some hm _).trans (decide_eq_false (Nat.not_le.mpr hlong)))

/-- Settles O13: at a busy port the block serves the pending request. -/
theorem issueWaitsForThePendingRequest : Obligations.IssueWaitsForThePendingRequest := by
  intro s c cmd rest h hr
  exact (step_issue_busy h hr).trans
    (step_block (s := { s with schedule := .block :: s.schedule }) (.inr ⟨s.schedule, rfl⟩)).symm

/-- Settles O46: each of the three things a step can do leaves the parameters. -/
theorem stepKeepsParameters : Obligations.StepKeepsParameters := by
  intro s t h
  rcases step_next_cases h with hk | ⟨_, -, rfl⟩ | ⟨_, _, -, -, rfl⟩
  · exact hk.params
  · rfl
  · rfl

/-- Settles O47: neither a reset nor a response touches the mark. -/
theorem refusalMarkStays : Obligations.RefusalMarkStays := by
  intro s t h hmark
  rcases step_next_cases h with hk | ⟨_, -, rfl⟩ | ⟨_, _, -, -, rfl⟩
  · exact hk.mark hmark
  · exact hmark
  · exact hmark

/-- Settles O48: a step that is no reset keeps `RSP_VALID` or sets it. -/
theorem onlyResetClearsValid : Obligations.OnlyResetClearsValid := by
  intro s t h hvalid hcleared
  rcases step_next_cases h with hk | ⟨rest, hreset, -⟩ | ⟨_, _, -, -, rfl⟩
  · exact absurd (hk.rspValid.trans hvalid) hcleared
  · exact ⟨rest, hreset⟩
  · exact absurd rfl hcleared

/-- Settles O49: the three things a step can do to the response registers. -/
theorem responseRegistersChangeAsOneUnit : Obligations.ResponseRegistersChangeAsOneUnit := by
  intro s t h
  rcases step_next_cases h with hk | ⟨rest, hreset, rfl⟩ | ⟨cmd, sched, hr, ha, rfl⟩
  · exact .inl ⟨hk.rspValid, hk.rspStatus, hk.rspFrame, hk.responses⟩
  · exact .inr (.inl ⟨⟨rest, hreset⟩, rfl, rfl, rfl, rfl⟩)
  · exact .inr (.inr ⟨cmd, _, _, hr, rfl, ha, exec_of_admits ha, rfl, rfl, rfl, rfl⟩)

end Sys2Proof.Proofs
end

section
/-! PROOFS. Words of the opcode table as requests, and runs of requests (rules R34, R38, R51, R71, R87, R96). -/

open Sys2Proof.Spec

namespace Sys2Proof

/-- A well-formed word of the row stands for the canonical line of its fields (assumption 8). -/
theorem decodeTableWord_of_frameWf {W : FrameWord} (h : frameWf (wordFrame W) = true) :
    decodeTableWord 88 W.toNat = some (.encodeWrite (commandLine (fieldsOf (wordFrame W)))) := by
  have hword : BitVec.ofNat 88 (W.toNat % 2 ^ 88) = W := by
    rw [Nat.mod_eq_of_lt W.isLt, BitVec.ofNat_toNat, BitVec.setWidth_eq]
  have hdecode : decodeFrame (wordFrame W) = .ok (fieldsOf (wordFrame W)) := (decodeFrame_eq_ok_iff _ _).mpr ⟨h, rfl⟩
  have hadmits (n : Nat) : Params.default.admits n = true := Machine.admits_of_none rfl n
  simp only [decodeTableWord, le_refl, if_true, hword, hdecode, decodeRequest, hadmits, Except.toOption]

namespace Machine

variable {s : State}

/-! ### A request and its service -/

/-- What a request issued at a free port and then served leaves in the block: its response, or the refusal mark. -/
def afterRequest (cmd : Bytes) (s : State) : State :=
  if s.params.admits cmd.length then writeResponse (responseOf (encodeWrite s.params cmd)) s else refuseRequest s

theorem afterRequest_params (cmd : Bytes) (s : State) : (afterRequest cmd s).params = s.params := by
  unfold afterRequest
  split <;> rfl

/-- An admitted request gets its response, an over-long one none (R87, assumption 15). -/
theorem afterRequest_responses (cmd : Bytes) (s : State) : (afterRequest cmd s).responses = s.responses ++
    ([cmd].filter fun c => s.params.admits c.length).map (fun c => responseOf (encodeWrite s.params c)) := by
  by_cases h : s.params.admits cmd.length = true <;> simp [afterRequest, h]

/-- An over-long request sets the mark (R87). -/
theorem afterRequest_refusalMark (cmd : Bytes) (s : State) :
    (afterRequest cmd s).refusalMark = (s.refusalMark || !s.params.admits cmd.length) := by
  by_cases h : s.params.admits cmd.length = true <;> simp [afterRequest, h]

/-! ### Running the turns of requests -/

theorem run_succ_of_step {t : State} (h : step s = .next t) (k : Nat) :
    Host.Core.run Sys2Proof.core (k + 1) s = Host.Core.run Sys2Proof.core k t := by
  have h' : Sys2Proof.core.step s = .next t := h
  simp only [Host.Core.run, h']

/-- Two steps issue a request at a free port and serve it (R34, assumptions 3 and 5). -/
theorem run_request {cmd : Bytes} {rest : List Turn} (h : s.schedule = .host (.issue cmd) :: .block :: rest)
    (hr : s.reqCmd = none) (k : Nat) :
    Host.Core.run Sys2Proof.core (k + 2) s =
      Host.Core.run Sys2Proof.core k { afterRequest cmd s with schedule := rest, reqCmd := none } := by
  by_cases ha : s.params.admits cmd.length = true
  · have hserve : step { s with schedule := .block :: rest, reqCmd := some cmd } =
        .next { afterRequest cmd s with schedule := rest, reqCmd := none } := by
      rw [afterRequest, if_pos ha]
      exact (step_block (.inr ⟨rest, rfl⟩)).trans (serve_of_admits rfl ha)
    rw [run_succ_of_step (step_issue_of_admits h hr ha), run_succ_of_step hserve]
  · have hidle : step { s with schedule := .block :: rest, refusalMark := true } =
        .next { afterRequest cmd s with schedule := rest, reqCmd := none } := by
      rw [afterRequest, if_neg ha, ← hr]
      exact (step_block (.inr ⟨rest, rfl⟩)).trans (serve_of_idle hr)
    rw [run_succ_of_step (step_issue_of_not_admits h hr (Bool.not_eq_true _ ▸ ha)), run_succ_of_step hidle]

/-- A run of requests answers each admitted one in order, by its bytes and the parameters alone (R34, R96). -/
theorem run_requestTurns (cmds : List Bytes) (hr : s.reqCmd = none) (hs : s.schedule = requestTurns cmds) :
    ∃ t : State, Host.Core.run Sys2Proof.core (2 * cmds.length) s = .next t ∧ t.schedule = [] ∧ t.reqCmd = none ∧
      t.params = s.params ∧
      t.responses = s.responses ++
        (cmds.filter fun c => s.params.admits c.length).map (fun c => responseOf (encodeWrite s.params c)) ∧
      t.refusalMark = (s.refusalMark || cmds.any fun c => !s.params.admits c.length) := by
  induction cmds generalizing s with
  | nil => exact ⟨s, rfl, hs, hr, rfl, by simp, by simp⟩
  | cons cmd cmds ih =>
    obtain ⟨t, hrun, hend, hfree, hp, hresp, hmark⟩ :=
      ih (s := { afterRequest cmd s with schedule := requestTurns cmds, reqCmd := none }) rfl rfl
    rw [afterRequest_params] at hp hresp hmark
    rw [afterRequest_responses] at hresp
    rw [afterRequest_refusalMark] at hmark
    refine ⟨t, (run_request hs hr _).trans hrun, hend, hfree, hp, ?_, ?_⟩
    · rw [hresp, List.append_assoc, ← List.map_append, ← List.filter_append]
      rfl
    · rw [hmark, List.any_cons, Bool.or_assoc]

end Machine

end Sys2Proof

namespace Sys2Proof.Proofs

open Sys2Proof.Machine

/-- Settles O43: the word stands for the canonical line of its fields, which gives their frame. -/
theorem everyTableWordReproducesItsFrame : Obligations.EveryTableWordReproducesItsFrame := by
  intro s W hp h
  have hWF := (frameWf_iff _).mp h
  have hstep := placedTableWordIsRunByTheNextStep s 88 W.toNat _ (decodeTableWord_of_frameWf h) (admits_default hp _)
  have hexec := exec_commandLine (s := { s with reqCmd := none }) hp ((WriteFields.wf_iff _).mpr (fieldsOf_wf hWF))
  rw [hstep, hexec, encodeFrame_fieldsOf hWF]

/-- Settles O44: the four words are evaluated. -/
theorem writtenOutTableWordsDecode : Obligations.WrittenOutTableWordsDecode := by
  refine ⟨?_, ?_, ?_, ?_⟩ <;> decide

/-- Settles O50, by induction on the requests: two steps serve the first and leave the port free. -/
theorem runAnswersEveryRequestInOrder : Obligations.RunAnswersEveryRequestInOrder := by
  intro s cmds hr hs
  exact run_requestTurns cmds hr hs

/-- Settles O51: in both orders each response is that of its own bytes. -/
theorem orderOfCallersChangesNoResponse : Obligations.OrderOfCallersChangesNoResponse := by
  intro s a b hr ha hb
  obtain ⟨t, hrun, -, -, -, hresp, -⟩ :=
    run_requestTurns (s := { s with schedule := requestTurns [a, b] }) [a, b] hr rfl
  obtain ⟨t', hrun', -, -, -, hresp', -⟩ :=
    run_requestTurns (s := { s with schedule := requestTurns [b, a] }) [b, a] hr rfl
  refine ⟨t, t', responseOf (encodeWrite s.params a), responseOf (encodeWrite s.params b), hrun, hrun', ?_, ?_⟩
  · simpa [ha, hb] using hresp
  · simpa [ha, hb] using hresp'

end Sys2Proof.Proofs
end
